-- ==== Sys2Proof/Word.lean ====
section
/-! DEFINITION. The two word widths of the core (00_scope.md R7, R10). -/

namespace Sys2Proof

/-- A byte, an unsigned integer 0..255 (R10). -/
abbrev Byte := BitVec 8

/-- A 16-bit word: every address, the program counter, the stack pointer and the composite
pointer (R7, R10). -/
abbrev Addr := BitVec 16

/-- A 3-bit selector field of an opcode (R81). -/
abbrev Sel3 := BitVec 3

/-- A 2-bit selector field of an opcode (R81). -/
abbrev Sel2 := BitVec 2

end Sys2Proof
end

