-- ==== Sys2Proof/Syntax.lean ====
section
/-! DEFINITION. The instructions and their operands as names: one constructor of `Instr` per row of
spec/opcode_table.json. -/

namespace Sys2Proof

/-- The seven 8-bit registers a register selector can name (R20, R21, R22). -/
inductive Reg where
  | a | b | c | d | e | h | l
deriving DecidableEq, Repr, Inhabited

/-- Every register, in the order of the spec's default codes (R22). -/
def Reg.all : List Reg := [.a, .b, .c, .d, .e, .h, .l]

/-- The four flags a flag selector can name (R28, R30). -/
inductive Flag where
  | z | s | p | cy
deriving DecidableEq, Repr, Inhabited

/-- Every flag, in the order of the spec's default codes (R30). -/
def Flag.all : List Flag := [.z, .s, .p, .cy]

/-- The eight operations of the ALU (R32, R202). -/
inductive AluOp where
  | add | adc | sub | sbb | and | or | xor | not
deriving DecidableEq, Repr, Inhabited

/-- Every operation, in the order of the spec's default codes (R85). -/
def AluOp.all : List AluOp := [.add, .adc, .sub, .sbb, .and, .or, .xor, .not]

/-- The two classes of arithmetic/logic instruction (R209). -/
inductive AluClass where
  | toAccumulator
  | flagOnly
deriving DecidableEq, Repr, Inhabited

/-- The ALU's pending operation `OP`: no-op, or one of the eight operations (R32). -/
inductive PendingOp where
  | noOp
  | op (o : AluOp)
deriving DecidableEq, Repr, Inhabited

/-- The 26 instructions of the opcode table (R90). -/
inductive Instr where
  /-- Immediate-load (R140). -/
  | ldi (dst : Reg) (n : Byte)
  /-- Stack-push (R160). -/
  | push (src : Reg)
  /-- Stack-pop (R165). -/
  | pop (dst : Reg)
  /-- Load-stack-pointer (R170). -/
  | lsp
  /-- Load-program-counter (R180). -/
  | lpc
  /-- Register-to-register move, destination first (R144). -/
  | mov (dst src : Reg)
  /-- Register-to-memory store (R148). -/
  | stm (src : Reg)
  /-- Memory-to-register load (R152). -/
  | ldm (dst : Reg)
  /-- Jump-if-flag-set (R182). -/
  | jfs (f : Flag)
  /-- Jump-if-flag-reset (R184). -/
  | jfr (f : Flag)
  /-- Halt (R186). -/
  | hlt
  /-- add (R210). -/
  | add (r : Reg)
  /-- add-with-carry (R211). -/
  | adc (r : Reg)
  /-- subtract (R212). -/
  | sub (r : Reg)
  /-- subtract-with-borrow (R213). -/
  | sbb (r : Reg)
  /-- and (R214). -/
  | and (r : Reg)
  /-- or (R215). -/
  | or (r : Reg)
  /-- xor (R216). -/
  | xor (r : Reg)
  /-- not (R217). -/
  | not (r : Reg)
  /-- flags of add (R220). -/
  | addf (r : Reg)
  /-- flags of add-with-carry (R221). -/
  | adcf (r : Reg)
  /-- flags of subtract (R222). -/
  | subf (r : Reg)
  /-- flags of subtract-with-borrow (R223). -/
  | sbbf (r : Reg)
  /-- flags of or (R224). -/
  | orf (r : Reg)
  /-- flags of xor (R225). -/
  | xorf (r : Reg)
  /-- flags of not (R226). -/
  | notf (r : Reg)
deriving DecidableEq, Repr, Inhabited

/-- The class, operation and register of an arithmetic/logic instruction (R209); `none` for the
others. -/
def Instr.alu? : Instr → Option (AluClass × AluOp × Reg)
  | .add r => some (.toAccumulator, .add, r)
  | .adc r => some (.toAccumulator, .adc, r)
  | .sub r => some (.toAccumulator, .sub, r)
  | .sbb r => some (.toAccumulator, .sbb, r)
  | .and r => some (.toAccumulator, .and, r)
  | .or r => some (.toAccumulator, .or, r)
  | .xor r => some (.toAccumulator, .xor, r)
  | .not r => some (.toAccumulator, .not, r)
  | .addf r => some (.flagOnly, .add, r)
  | .adcf r => some (.flagOnly, .adc, r)
  | .subf r => some (.flagOnly, .sub, r)
  | .sbbf r => some (.flagOnly, .sbb, r)
  | .orf r => some (.flagOnly, .or, r)
  | .xorf r => some (.flagOnly, .xor, r)
  | .notf r => some (.flagOnly, .not, r)
  | .ldi _ _ => none
  | .push _ => none
  | .pop _ => none
  | .lsp => none
  | .lpc => none
  | .mov _ _ => none
  | .stm _ => none
  | .ldm _ => none
  | .jfs _ => none
  | .jfr _ => none
  | .hlt => none

/-- What an opcode can select: an instruction of the table, or the flag-only AND, which no opcode
selects under the default parameters and which therefore has no row (R85, R98; log entry 8). -/
inductive Decoded where
  | instr (i : Instr)
  | andFlagOnly (r : Reg)
deriving DecidableEq, Repr, Inhabited

end Sys2Proof
end

