-- ==== Sys2Proof/Config.lean ====
section
/-! DEFINITION. The implementation parameters of 00_scope.md R8, but for the two memories' capacities
and contents (which stand beside each other in `MemoryBus`), and the one free value of the model.
A `Config` is constant over the life of a machine (R17); `State` holds it (log entry 2). The spec's
default values are `Config.specDefault` in Sys2Proof/Decode.lean. -/

namespace Sys2Proof

/-- `ALU_LAYOUT`: which 3-bit field of an arithmetic/logic opcode is the register and which the
operation (R85, R98). -/
inductive AluLayout where
  /-- register in bits [5:3], operation in bits [2:0] (the default). -/
  | regSrcOpCtl
  /-- operation in bits [5:3], register in bits [2:0]. -/
  | opSrcRegCtl
deriving DecidableEq, Repr, Inhabited

/-- `NOT_OPERAND`: the operand of NOT (R217). -/
inductive NotOperand where
  | acc | temp
deriving DecidableEq, Repr, Inhabited

/-- `NOT_WIDTH`: the width of NOT's complement (R217). -/
inductive NotWidth where
  | w8 | w16
deriving DecidableEq, Repr, Inhabited

/-- `SIGN_MODE`: the sign flag is bit 7 of the intermediate, or is never set (R206). -/
inductive SignMode where
  | bit7 | never
deriving DecidableEq, Repr, Inhabited

/-- `WRAP16`: what incrementing 0xFFFF and decrementing 0x0000 do (R27). -/
inductive Wrap16 where
  | wrap | fault
deriving DecidableEq, Repr, Inhabited

/-- The parameters that the decoder reads. A bijection from codes is the list of its values in code
order: position `k` holds what code `k` selects. -/
structure DecodeConfig where
  /-- `REG_CODE` (R22). -/
  regCode : List Reg
  /-- `FLAG_CODE` (R30). -/
  flagCode : List Flag
  /-- `ALU_LAYOUT` (R85). -/
  aluLayout : AluLayout
  /-- `ALU_OP_CODE` (R85). -/
  aluOpCode : List AluOp
deriving DecidableEq, Repr, Inhabited

/-- The parameters of R8. -/
structure Config where
  decode : DecodeConfig
  notOperand : NotOperand
  notWidth : NotWidth
  signMode : SignMode
  wrap16 : Wrap16
deriving DecidableEq, Repr, Inhabited

/-- FREE VALUE (log entry 4): the pending operation that a core holds once it is Faulted, which the
spec leaves unspecified (R32, R129, 93_implementation_defined.md U6). It is applied to a counter of
`State`, so that each fault entry has a value of its own. -/
opaque Config.faultedOp : Nat → PendingOp

end Sys2Proof
end

