-- ==== Sys2Proof/Decode.lean ====
section
/-! DEFINITION. The instruction decoder (30_encoding.md), total on any bytes and refusing by name, and
after it the encoder, written from the same encoding table. -/

namespace Sys2Proof

/-! ### The default parameters -/

/-- The spec's default values of the parameters of R8 (92_eei_decisions.md D1 to D8). -/
def Config.specDefault : Config where
  decode :=
    { regCode := [.a, .b, .c, .d, .e, .h, .l]
      flagCode := [.z, .s, .p, .cy]
      aluLayout := .regSrcOpCtl
      aluOpCode := [.add, .adc, .sub, .sbb, .and, .or, .xor, .not] }
  notOperand := .acc
  notWidth := .w8
  signMode := .bit7
  wrap16 := .wrap

/-! ### Fields of the opcode byte (R81) -/

/-- `op[7:6]`, the quadrant. -/
def quadrant (op : Byte) : Sel2 := op.extractLsb' 6 2

/-- `op[5:3]`, the source position. -/
def srcField (op : Byte) : Sel3 := op.extractLsb' 3 3

/-- `op[2:0]`, the control position. -/
def ctlField (op : Byte) : Sel3 := op.extractLsb' 0 3

/-- `op[5:4]`, the flag selector. -/
def fselField (op : Byte) : Sel2 := op.extractLsb' 4 2

/-! ### Selectors -/

/-- The register of a selector code; none for code 7 (R22, R83). -/
def DecodeConfig.regOf (c : DecodeConfig) (k : Sel3) : Option Reg := c.regCode[k.toNat]?

/-- The flag of a selector code (R30, R84). -/
def DecodeConfig.flagOf (c : DecodeConfig) (k : Sel2) : Option Flag := c.flagCode[k.toNat]?

/-- The ALU operation of a selector code (R85). -/
def DecodeConfig.opOf (c : DecodeConfig) (k : Sel3) : Option AluOp := c.aluOpCode[k.toNat]?

/-! ### Classification (R87) -/

/-- Why bytes are no instruction. The first four are the core's `DecodeFault` (R95, R243); the last
two say that bytes are missing, which on the machine is a `MemRangeFault` of the fetch. -/
inductive DecodeError where
  /-- The opcode matches no row (R95, "anything else"). -/
  | noRow (op : Byte)
  /-- A register field holds a code of no register (R83). -/
  | badRegister (op : Byte)
  /-- A flag field holds a code of no flag (R84); with a well-formed `FLAG_CODE` this cannot occur. -/
  | badFlag (op : Byte)
  /-- An operation field holds a code of no operation; with a well-formed `ALU_OP_CODE` this cannot
  occur. -/
  | badOperation (op : Byte)
  /-- There is no opcode byte. -/
  | noOpcode
  /-- The opcode is Immediate-load and there is no immediate byte. -/
  | noImmediate
deriving DecidableEq, Repr

/-- What one opcode byte says: Immediate-load, whose second byte is still to be read, or a whole
one-byte instruction (R80). -/
inductive Classified where
  | immediateLoad (dst : Reg)
  | whole (i : Decoded)
deriving DecidableEq, Repr

/-- The opcodes of Stack-push (R87). -/
def pushOpcodes : List Byte := [0x07, 0x0F, 0x17, 0x1F, 0x27, 0x2F, 0x37]

/-- The opcodes of Jump-if-flag-set (R87). -/
def jfsOpcodes : List Byte := [0xCC, 0xDC, 0xEC, 0xFC]

/-- The opcodes of Jump-if-flag-reset (R87). -/
def jfrOpcodes : List Byte := [0xC4, 0xD4, 0xE4, 0xF4]

/-- The to-accumulator instruction of an operation (R90). -/
def accInstr (o : AluOp) (r : Reg) : Instr :=
  match o with
  | .add => .add r
  | .adc => .adc r
  | .sub => .sub r
  | .sbb => .sbb r
  | .and => .and r
  | .or => .or r
  | .xor => .xor r
  | .not => .not r

/-- The flag-only instruction of an operation (R90); flag-only AND has no row (R98). -/
def flagInstr (o : AluOp) (r : Reg) : Decoded :=
  match o with
  | .add => .instr (.addf r)
  | .adc => .instr (.adcf r)
  | .sub => .instr (.subf r)
  | .sbb => .instr (.sbbf r)
  | .and => .andFlagOnly r
  | .or => .instr (.orf r)
  | .xor => .instr (.xorf r)
  | .not => .instr (.notf r)

/-- A register selector, or the register-field decode fault (R83). -/
def selectReg (c : DecodeConfig) (op : Byte) (k : Sel3) : Except DecodeError Reg :=
  match c.regOf k with
  | some r => .ok r
  | none => .error (.badRegister op)

/-- A flag selector, or the flag-field decode fault (R84). -/
def selectFlag (c : DecodeConfig) (op : Byte) (k : Sel2) : Except DecodeError Flag :=
  match c.flagOf k with
  | some f => .ok f
  | none => .error (.badFlag op)

/-- An operation selector (R85). -/
def selectOp (c : DecodeConfig) (op : Byte) (k : Sel3) : Except DecodeError AluOp :=
  match c.opOf k with
  | some o => .ok o
  | none => .error (.badOperation op)

/-- The operation and register of an arithmetic/logic opcode, by `ALU_LAYOUT` (R85, R98). -/
def aluFields (c : DecodeConfig) (op : Byte) : Except DecodeError (AluOp × Reg) :=
  match c.aluLayout with
  | .regSrcOpCtl => do
    let o ← selectOp c op (ctlField op)
    let r ← selectReg c op (srcField op)
    return (o, r)
  | .opSrcRegCtl => do
    let o ← selectOp c op (srcField op)
    let r ← selectReg c op (ctlField op)
    return (o, r)

/-- The rows of the decoder's table (R87). -/
inductive Row where
  | ldi | push | pop | lsp | lpc | mov | stm | ldm | jfs | jfr | hlt | aluAcc | aluFlag | illegal
deriving DecidableEq, Repr

/-- The row of an opcode: R87's tests in its order; the first that matches decides. -/
def rowOf (op : Byte) : Row :=
  if op ≤ 0x06#8 then .ldi
  else if op ∈ pushOpcodes then .push
  else if 0x38#8 ≤ op ∧ op ≤ 0x3E#8 then .pop
  else if op = 0x3F#8 then .lsp
  else if op = 0x24#8 then .lpc
  else if quadrant op = 1#2 ∧ srcField op ≠ 7#3 ∧ ctlField op ≠ 7#3 then .mov
  else if quadrant op = 1#2 ∧ ctlField op = 7#3 ∧ srcField op ≠ 7#3 then .stm
  else if 0x78#8 ≤ op ∧ op ≤ 0x7E#8 then .ldm
  else if op ∈ jfsOpcodes then .jfs
  else if op ∈ jfrOpcodes then .jfr
  else if op = 0xFF#8 then .hlt
  else if quadrant op = 2#2 then .aluAcc
  else if quadrant op = 3#2 ∧ ctlField op ≠ 4#3 then .aluFlag
  else .illegal

/-- What an opcode says: its row, with the row's fields looked up, or the decode fault (R87). Total and
pure (R88). -/
def classify (c : DecodeConfig) (op : Byte) : Except DecodeError Classified :=
  match rowOf op with
  | .ldi => do
    let dst ← selectReg c op (ctlField op)
    return .immediateLoad dst
  | .push => do
    let src ← selectReg c op (srcField op)
    return .whole (.instr (.push src))
  | .pop => do
    let dst ← selectReg c op (ctlField op)
    return .whole (.instr (.pop dst))
  | .lsp => return .whole (.instr .lsp)
  | .lpc => return .whole (.instr .lpc)
  | .mov => do
    let src ← selectReg c op (srcField op)
    let dst ← selectReg c op (ctlField op)
    return .whole (.instr (.mov dst src))
  | .stm => do
    let src ← selectReg c op (srcField op)
    return .whole (.instr (.stm src))
  | .ldm => do
    let dst ← selectReg c op (ctlField op)
    return .whole (.instr (.ldm dst))
  | .jfs => do
    let f ← selectFlag c op (fselField op)
    return .whole (.instr (.jfs f))
  | .jfr => do
    let f ← selectFlag c op (fselField op)
    return .whole (.instr (.jfr f))
  | .hlt => return .whole (.instr .hlt)
  | .aluAcc => do
    let (o, r) ← aluFields c op
    return .whole (.instr (accInstr o r))
  | .aluFlag => do
    let (o, r) ← aluFields c op
    return .whole (flagInstr o r)
  | .illegal => .error (.noRow op)

/-- The instruction at the head of a byte string, with the bytes after it (R80, R86, R88). -/
def decode (c : DecodeConfig) : List Byte → Except DecodeError (Decoded × List Byte)
  | [] => .error .noOpcode
  | op :: rest =>
    match classify c op with
    | .error e => .error e
    | .ok (.whole i) => .ok (i, rest)
    | .ok (.immediateLoad dst) =>
      match rest with
      | [] => .error .noImmediate
      | n :: rest' => .ok (.instr (.ldi dst n), rest')

/-- The instruction that the decoder reads, under the default parameters, from the table's bits `w`:
byte 0 is bits 7..0, byte 1 is bits 15..8, and every bit from `nbits` on is 0. -/
def decodeTableWord (nbits w : Nat) : Option Instr :=
  match decode Config.specDefault.decode
      [BitVec.ofNat 8 (w % 2 ^ nbits), BitVec.ofNat 8 (w % 2 ^ nbits / 256)] with
  | .ok (.instr i, _) => some i
  | .ok (.andFlagOnly _, _) => none
  | .error _ => none

/-! ### The encoder (R82, R90) -/

/-- The selector code of a register: its position in `REG_CODE`. -/
def DecodeConfig.regSel (c : DecodeConfig) (r : Reg) : Sel3 :=
  BitVec.ofNat 3 (c.regCode.idxOf r)

/-- The selector code of a flag: its position in `FLAG_CODE`. -/
def DecodeConfig.flagSel (c : DecodeConfig) (f : Flag) : Sel2 :=
  BitVec.ofNat 2 (c.flagCode.idxOf f)

/-- The selector code of an ALU operation: its position in `ALU_OP_CODE`. -/
def DecodeConfig.opSel (c : DecodeConfig) (o : AluOp) : Sel3 :=
  BitVec.ofNat 3 (c.aluOpCode.idxOf o)

/-- The field in bits [2:0] of an arithmetic/logic opcode with operation `o` on register `r`
(R85, R98). -/
def DecodeConfig.aluCtl (c : DecodeConfig) (o : AluOp) (r : Reg) : Sel3 :=
  match c.aluLayout with
  | .regSrcOpCtl => c.opSel o
  | .opSrcRegCtl => c.regSel r

/-- The field in bits [5:3] of an arithmetic/logic opcode with operation `o` on register `r`
(R85, R98). -/
def DecodeConfig.aluSrc (c : DecodeConfig) (o : AluOp) (r : Reg) : Sel3 :=
  match c.aluLayout with
  | .regSrcOpCtl => c.regSel r
  | .opSrcRegCtl => c.opSel o

/-- An arithmetic/logic opcode: quadrant, then the two fields in the layout's order. -/
def aluByte (c : DecodeConfig) (q : Sel2) (o : AluOp) (r : Reg) : Byte :=
  q ++ c.aluSrc o r ++ c.aluCtl o r

/-- The bytes of an instruction, lowest address first (R82, R90, R112). -/
def encode (c : DecodeConfig) : Instr → List Byte
  | .ldi dst n => [0b00000#5 ++ c.regSel dst, n]
  | .push src => [0b00#2 ++ c.regSel src ++ 0b111#3]
  | .pop dst => [0b00111#5 ++ c.regSel dst]
  | .lsp => [0x3F#8]
  | .lpc => [0x24#8]
  | .mov dst src => [0b01#2 ++ c.regSel src ++ c.regSel dst]
  | .stm src => [0b01#2 ++ c.regSel src ++ 0b111#3]
  | .ldm dst => [0b01111#5 ++ c.regSel dst]
  | .jfs f => [0b11#2 ++ c.flagSel f ++ 0b1100#4]
  | .jfr f => [0b11#2 ++ c.flagSel f ++ 0b0100#4]
  | .hlt => [0xFF#8]
  | .add r => [aluByte c 0b10#2 .add r]
  | .adc r => [aluByte c 0b10#2 .adc r]
  | .sub r => [aluByte c 0b10#2 .sub r]
  | .sbb r => [aluByte c 0b10#2 .sbb r]
  | .and r => [aluByte c 0b10#2 .and r]
  | .or r => [aluByte c 0b10#2 .or r]
  | .xor r => [aluByte c 0b10#2 .xor r]
  | .not r => [aluByte c 0b10#2 .not r]
  | .addf r => [aluByte c 0b11#2 .add r]
  | .adcf r => [aluByte c 0b11#2 .adc r]
  | .subf r => [aluByte c 0b11#2 .sub r]
  | .sbbf r => [aluByte c 0b11#2 .sbb r]
  | .orf r => [aluByte c 0b11#2 .or r]
  | .xorf r => [aluByte c 0b11#2 .xor r]
  | .notf r => [aluByte c 0b11#2 .not r]

/-- The bytes of everything an opcode can select (R98 for the flag-only AND). -/
def encodeDecoded (c : DecodeConfig) : Decoded → List Byte
  | .instr i => encode c i
  | .andFlagOnly r => [aluByte c 0b11#2 .and r]

end Sys2Proof
end

