-- ==== Sys2Proof/Machine/State.lean ====
section
/-! DEFINITION. The state of the core and of its two memories (10_state.md), the reasons the host's
outcomes can carry, and the state after reset. -/

namespace Sys2Proof.Machine

/-- The accumulator and the six general registers (R20, R21). -/
structure Regs where
  a : Byte
  b : Byte
  c : Byte
  d : Byte
  e : Byte
  h : Byte
  l : Byte
deriving DecidableEq, Repr, Inhabited

/-- The four flags (R28). They are four separate bits, which the ALU writes together (R29). -/
structure Flags where
  z : Bool
  cy : Bool
  s : Bool
  p : Bool
deriving DecidableEq, Repr, Inhabited

/-- The run state `RUN` (R40). -/
inductive RunState where
  | running | halted | faulted
deriving DecidableEq, Repr, Inhabited

/-- Which of the two memories a range fault names (R241). -/
inductive MemKind where
  | rom | ram
deriving DecidableEq, Repr, Inhabited

/-- Which access a range fault names (R241). -/
inductive AccessKind where
  | read | write
deriving DecidableEq, Repr, Inhabited

/-- Why an internal fault was raised (R244). -/
inductive InternalWhy where
  | phase | overflow16
deriving DecidableEq, Repr, Inhabited

/-- A fault of the core with the information that `FAULT` records (R241). -/
inductive FaultRecord where
  | memRange (mem : MemKind) (access : AccessKind) (addr : Addr)
  | decode (op : Byte)
  | internal (why : InternalWhy)
deriving DecidableEq, Repr, Inhabited

/-- The contents of a memory: (address, byte) pairs in the canonical form of `Memory.wf`
(Sys2Proof/Machine/Memory.lean). -/
abbrev Memory := List Host.Cell

/-- A MemoryBus: "a fixed-capacity byte array" (R50, R56). -/
structure MemoryBus where
  /-- `ROM_SIZE` or `RAM_SIZE` (R8). -/
  capacity : Nat
  cells : Memory
deriving DecidableEq, Repr, Inhabited

/-- The whole machine: the core's state (R42's table), the two memories (R35), the parameters, which
are constant (R8, R17), and one field of the model's own, `freeCount` (log entry 4). The composite
pointer HL is derived and not stored (R24). -/
structure State where
  /-- A, B, C, D, E, H, L. -/
  regs : Regs
  /-- `SP` (R25). -/
  sp : Addr
  /-- `PC` (R26). -/
  pc : Addr
  /-- `T`, the ALU's temp (R31). -/
  t : Byte
  /-- `Z`, `CY`, `S`, `P` (R28). -/
  flags : Flags
  /-- `OP`, the ALU's pending operation (R32). -/
  op : PendingOp
  /-- `RUN` (R40). -/
  run : RunState
  /-- `FAULT` (R41). -/
  fault : Option FaultRecord
  /-- Program memory, read only for the core (R52). -/
  rom : MemoryBus
  /-- Data memory (R53, R54). -/
  ram : MemoryBus
  /-- The parameters of R8. -/
  cfg : Config
  /-- How many free values have been drawn: the model's own field (log entry 4). -/
  freeCount : Nat
deriving DecidableEq, Repr, Inhabited

/-- Why the host's `fault` outcome is answered. A fault of the core is none of these: it is a next
state, the Faulted state of R246 (log entry 3), and no step answers the outcome `fault`. -/
inductive Fault where
  /-- Raised by `State.loadProgram` alone, when the image is longer than program memory: "exceeding it
  ... must become an explicit fatal fault" (R58, 93_implementation_defined.md U1). SAFE: no run is
  started. -/
  | imageTooLong (length capacity : Nat)
  /-- Raised by `State.hostWrite` alone, when the bytes do not fit below the capacity of the memory: the
  host must not "exceed a capacity (refused)" (R280, 93_implementation_defined.md U1; log entry 19). SAFE: no
  byte is written. -/
  | hostWriteOutOfRange (mem : MemKind) (addr length capacity : Nat)
  /-- Raised by `State.sizeMemories` alone, when a capacity is above 65536, which R56 does not admit (log
  entry 19). SAFE: nothing is changed. -/
  | sizeTooLarge (romSize ramSize : Nat)
  /-- Raised by `State.sizeMemories` alone, when a memory already holds a byte other than 0 at or above its
  new capacity: what is loaded must not exceed a capacity (R275, R280; log entry 19). SAFE: nothing is
  changed. -/
  | sizeTooSmall (romSize ramSize : Nat)
deriving DecidableEq, Repr

/-- Why the host's `refused` outcome is answered. -/
inductive Refusal where
  /-- Raised by the arm of an instruction that has no meaning yet; every instruction has one, so
  nothing raises it. SAFE. -/
  | notModelled (mnemonic : String)
deriving DecidableEq, Repr

/-- The machine right after power-on, which is the state after reset (R42, R270) with memories that
nothing has written (R36, R271). The two capacities, to which the spec gives no default, are the whole
16-bit address space (DESIGN CHOICE, log entry 1), and the counter of free values starts at 0
(DESIGN CHOICE, log entry 4). -/
def State.reset : State where
  regs := { a := 0, b := 0, c := 0, d := 0, e := 0, h := 0, l := 0 }
  sp := 0
  pc := 0
  t := 0
  flags := { z := false, cy := false, s := false, p := false }
  op := .noOp
  run := .running
  fault := none
  rom := { capacity := 65536, cells := [] }
  ram := { capacity := 65536, cells := [] }
  cfg := Config.specDefault
  freeCount := 0

end Sys2Proof.Machine
end

