-- ==== Sys2Proof/Machine/Flags.lean ====
section
/-! DEFINITION. The ALU function (44_alu.md R202 to R207): the exact intermediate, the 8-bit result and
the four flags. -/

namespace Sys2Proof.Machine

/-- A flag as it enters arithmetic (R10). -/
def carryIn (cy : Bool) : Int := if cy then 1 else 0

/-- The intermediate of NOT: the complement of the operand that `NOT_OPERAND` names, in the width that
`NOT_WIDTH` names (R217). -/
def notIntermediate (cfg : Config) (a t : Byte) : Int :=
  let x : Byte := match cfg.notOperand with
    | .acc => a
    | .temp => t
  match cfg.notWidth with
  | .w8 => 255 - (x.toNat : Int)
  | .w16 => -1 - (x.toNat : Int)

/-- The "16-bit-wide signed intermediate result", exact (R202, R203). -/
def intermediate (cfg : Config) (o : AluOp) (a t : Byte) (cy : Bool) : Int :=
  match o with
  | .add => (a.toNat : Int) + t.toNat
  | .adc => (a.toNat : Int) + t.toNat + carryIn cy
  | .sub => (a.toNat : Int) - t.toNat
  | .sbb => (a.toNat : Int) - t.toNat - carryIn cy
  | .and => ((a &&& t).toNat : Int)
  | .or => ((a ||| t).toNat : Int)
  | .xor => ((a ^^^ t).toNat : Int)
  | .not => notIntermediate cfg a t

/-- "the truncated 8-bit result" (R202, R10). -/
def trunc8 (i : Int) : Byte := BitVec.ofInt 8 i

/-- "zero flag := intermediate == 0" (R202, R204). -/
def zeroFlag (i : Int) : Bool := decide (i = 0)

/-- "carry flag := intermediate < 0 or intermediate > 255" (R202, R207). -/
def carryFlag (i : Int) : Bool := decide (i < 0 ∨ 255 < i)

/-- "sign flag := bit 7 of the intermediate is set", or never set (R202, R206). -/
def signFlag (m : SignMode) (i : Int) : Bool :=
  match m with
  | .bit7 => decide (128 ≤ (trunc8 i).toNat)
  | .never => false

/-- "parity flag := intermediate is even" (R202, R205). -/
def parityFlag (i : Int) : Bool := decide (i % 2 = 0)

/-- The four flags of an intermediate (R202). -/
def flagsOf (m : SignMode) (i : Int) : Flags where
  z := zeroFlag i
  cy := carryFlag i
  s := signFlag m i
  p := parityFlag i

/-- `alu(o, a, t, cy)`: the 8-bit result and the four flags (R202). -/
def alu (cfg : Config) (o : AluOp) (a t : Byte) (cy : Bool) : Byte × Flags :=
  let i := intermediate cfg o a t cy
  (trunc8 i, flagsOf cfg.signMode i)

end Sys2Proof.Machine
end

