-- ==== Sys2Proof/Machine/Memory.lean ====
section
/-! DEFINITION. The MemoryBus (20_memory.md R50, R51): reading and writing one byte of a memory, and
the canonical form of its contents. -/

namespace Sys2Proof.Machine

/-- What an unlisted address reads as: data memory "starts zero-filled" (R36), and the spec fills
program memory beyond the image with zeros (R36, 92_eei_decisions.md D13). -/
def Memory.fill : Byte := 0

/-- The byte at an address. -/
def Memory.read (m : Memory) (a : Nat) : Byte :=
  match m with
  | [] => Memory.fill
  | (k, v) :: rest => if k = a then v else Memory.read rest a

/-- The contents without an entry for an address. -/
def Memory.erase (m : Memory) (a : Nat) : Memory :=
  match m with
  | [] => []
  | (k, w) :: rest => if k = a then Memory.erase rest a else (k, w) :: Memory.erase rest a

/-- An entry put in front of the first entry whose address is not below it. -/
def Memory.insert (m : Memory) (a : Nat) (v : Byte) : Memory :=
  match m with
  | [] => [(a, v)]
  | (k, w) :: rest => if a ≤ k then (a, v) :: (k, w) :: rest else (k, w) :: Memory.insert rest a v

/-- The contents with one byte changed, in canonical form again: writing what an unlisted address reads
as removes the entry. -/
def Memory.write (m : Memory) (a : Nat) (v : Byte) : Memory :=
  if v = Memory.fill then Memory.erase m a else Memory.insert (Memory.erase m a) a v

/-- The canonical form from address `lo` up to a capacity: addresses strictly rising, and no entry
equal to what an unlisted address reads as. -/
def Memory.wfFrom (capacity lo : Nat) (m : Memory) : Bool :=
  match m with
  | [] => true
  | (k, v) :: rest =>
    decide (lo ≤ k) && decide (k < capacity) && decide (v ≠ Memory.fill)
      && Memory.wfFrom capacity (k + 1) rest

/-- The canonical form of the contents of a memory of a capacity. -/
def Memory.wf (capacity : Nat) (m : Memory) : Bool := Memory.wfFrom capacity 0 m

/-- A memory's answer to a read request (R57). -/
inductive ReadResponse where
  | ok (v : Byte)
  | outOfRange
deriving DecidableEq, Repr

/-- A memory's answer to a write request (R57). -/
inductive WriteResponse where
  | ok (m : MemoryBus)
  | outOfRange
deriving DecidableEq, Repr

/-- The byte a memory holds at an address, in range or not. -/
def MemoryBus.byteAt (m : MemoryBus) (a : Addr) : Byte := Memory.read m.cells a.toNat

/-- "`read(address) -> byte`: fails fatally if `address >= capacity`" (R50, R55). -/
def MemoryBus.read (m : MemoryBus) (a : Addr) : ReadResponse :=
  if a.toNat < m.capacity then .ok (m.byteAt a) else .outOfRange

/-- "`write(address, byte)`: mutates in place; same bounds contract" (R51, R55). -/
def MemoryBus.write (m : MemoryBus) (a : Addr) (v : Byte) : WriteResponse :=
  if a.toNat < m.capacity then .ok { m with cells := Memory.write m.cells a.toNat v }
  else .outOfRange

/-- A memory is well-formed: its capacity is within R56's range and its contents are canonical. -/
def MemoryBus.wf (m : MemoryBus) : Bool :=
  decide (m.capacity ≤ 65536) && Memory.wf m.capacity m.cells

/-- Every listed byte lies below a capacity; the bytes at and above it then read as `Memory.fill`. -/
def Memory.fits (capacity : Nat) (m : Memory) : Bool := m.all fun e => decide (e.1 < capacity)

/-- The contents with a byte string copied in from an address on (R58). -/
def Memory.writeList (m : Memory) (a : Nat) : List Byte → Memory
  | [] => m
  | v :: rest => Memory.writeList (Memory.write m a v) (a + 1) rest

end Sys2Proof.Machine
end

