-- ==== Sys2Proof/Machine/Operands.lean ====
section
/-! DEFINITION. Every operand form of the ISA: a register by name (R20 to R23), the composite pointer
(R24) and a flag by name (R30). -/

namespace Sys2Proof.Machine

/-- `r[x]` (R11). -/
def Regs.get (g : Regs) (r : Reg) : Byte :=
  match r with
  | .a => g.a
  | .b => g.b
  | .c => g.c
  | .d => g.d
  | .e => g.e
  | .h => g.h
  | .l => g.l

/-- `r[x] <- v` (R11). No register is hard-wired, aliased or banked (R20). -/
def Regs.set (g : Regs) (r : Reg) (v : Byte) : Regs :=
  match r with
  | .a => { g with a := v }
  | .b => { g with b := v }
  | .c => { g with c := v }
  | .d => { g with d := v }
  | .e => { g with e := v }
  | .h => { g with h := v }
  | .l => { g with l := v }

/-- The composite pointer of a register file, H the high byte and L the low byte (R24, R59). -/
def Regs.hl (g : Regs) : Addr := g.h ++ g.l

/-- The flag that a selector names (R30). -/
def Flags.get (f : Flags) (k : Flag) : Bool :=
  match k with
  | .z => f.z
  | .s => f.s
  | .p => f.p
  | .cy => f.cy

/-- A register of the machine. -/
def State.reg (s : State) (r : Reg) : Byte := s.regs.get r

/-- The machine with one register written. -/
def State.setReg (s : State) (r : Reg) (v : Byte) : State := { s with regs := s.regs.set r v }

/-- The composite pointer, recomputed at each use (R24). -/
def State.hl (s : State) : Addr := s.regs.hl

/-- A flag of the machine. -/
def State.flag (s : State) (k : Flag) : Bool := s.flags.get k

/-- `PC <- target` (R11). -/
def State.setPc (s : State) (w : Addr) : State := { s with pc := w }

/-- `SP <- target` (R11). -/
def State.setSp (s : State) (w : Addr) : State := { s with sp := w }

/-- `T <- v` (R11, R31). -/
def State.setT (s : State) (v : Byte) : State := { s with t := v }

/-- All four flags are written together (R29). -/
def State.setFlags (s : State) (f : Flags) : State := { s with flags := f }

end Sys2Proof.Machine
end

