-- ==== Sys2Proof/Machine/Ops.lean ====
section
/-! DEFINITION. The operations the instructions share: fault entry and its only way back (reset), 16-bit
arithmetic, access to the two memories, and the ALU's `set_operation` and `calculate`. -/

namespace Sys2Proof.Machine

/-! ### Faults -/

/-- FAULT ENTRY, `raise F(info)` (R11, R246): the step ends here; every write already made stays;
`FAULT` is recorded and `RUN` becomes Faulted. Nothing else changes but `OP`, which is unspecified in
the Faulted state (R32) and so takes a free value (log entry 4). -/
def State.raise (s : State) (f : FaultRecord) : State :=
  { s with
    run := .faulted
    fault := some f
    op := Config.faultedOp s.freeCount
    freeCount := s.freeCount + 1 }

/-- RESET, the only way out of Faulted and of Halted (R249, R273): every piece of core state takes the
value of R42's table; neither memory is touched (R271), and the parameters are constant. -/
def State.applyReset (s : State) : State :=
  { s with
    regs := { a := 0, b := 0, c := 0, d := 0, e := 0, h := 0, l := 0 }
    sp := 0
    pc := 0
    t := 0
    flags := { z := false, cy := false, s := false, p := false }
    op := .noOp
    run := .running
    fault := none }

/-- What an action inside a step comes to: a value, or the state in which the step has faulted. -/
abbrev Attempt (α : Type) := Except State α

/-- The outcome of an instruction's actions: in either case a next state, since a fault of the core is
the Faulted state of R246 (log entry 3). -/
def Attempt.outcome (x : Attempt State) : Host.Outcome State Fault Refusal :=
  match x with
  | .ok s => .next s
  | .error s => .next s

/-! ### 16-bit arithmetic on PC and SP (R27) -/

/-- `inc16(w)`; none where it faults. -/
def inc16 (m : Wrap16) (w : Addr) : Option Addr :=
  match m with
  | .wrap => some (w + 1)
  | .fault => if w = 0xFFFF#16 then none else some (w + 1)

/-- `dec16(w)`; none where it faults. -/
def dec16 (m : Wrap16) (w : Addr) : Option Addr :=
  match m with
  | .wrap => some (w - 1)
  | .fault => if w = 0x0000#16 then none else some (w - 1)

/-- `PC <- inc16(PC)`. -/
def State.incPc (s : State) : Attempt State :=
  match inc16 s.cfg.wrap16 s.pc with
  | some w => .ok (s.setPc w)
  | none => .error (s.raise (.internal .overflow16))

/-- `SP <- inc16(SP)`. -/
def State.incSp (s : State) : Attempt State :=
  match inc16 s.cfg.wrap16 s.sp with
  | some w => .ok (s.setSp w)
  | none => .error (s.raise (.internal .overflow16))

/-- `SP <- dec16(SP)`. -/
def State.decSp (s : State) : Attempt State :=
  match dec16 s.cfg.wrap16 s.sp with
  | some w => .ok (s.setSp w)
  | none => .error (s.raise (.internal .overflow16))

/-! ### Memory accesses (R52 to R54) -/

/-- `RomRead(a)` (R52). -/
def State.romRead (s : State) (a : Addr) : Attempt Byte :=
  match s.rom.read a with
  | .ok v => .ok v
  | .outOfRange => .error (s.raise (.memRange .rom .read a))

/-- `RamRead(a)` (R53). -/
def State.ramRead (s : State) (a : Addr) : Attempt Byte :=
  match s.ram.read a with
  | .ok v => .ok v
  | .outOfRange => .error (s.raise (.memRange .ram .read a))

/-- `RamWrite(a, v)` (R54). -/
def State.ramWrite (s : State) (a : Addr) (v : Byte) : Attempt State :=
  match s.ram.write a v with
  | .ok m => .ok { s with ram := m }
  | .outOfRange => .error (s.raise (.memRange .ram .write a))

/-! ### The ALU block (R200, R201, R209) -/

/-- `set_operation(op)` (R201). -/
def State.setOperation (s : State) (o : PendingOp) : State := { s with op := o }

/-- `calculate()`: the result of the pending operation on `A`, `T` and `CY`, with the flags written
(R202, R209). With no operation pending, which no step reaches, it is the internal consistency fault
(R208, 93_implementation_defined.md U7). -/
def State.calculate (s : State) : Attempt (Byte × State) :=
  match s.op with
  | .op o =>
    let out := alu s.cfg o (s.reg .a) s.t s.flags.cy
    .ok (out.1, s.setFlags out.2)
  | .noOp => .error (s.raise (.internal .phase))

/-- The Operand phase of every arithmetic/logic instruction, with the operation that its decode has
selected (R122, R209). -/
def State.aluOperand (s : State) (o : AluOp) (r : Reg) : State :=
  (s.setOperation (.op o)).setT (s.reg r)

/-- R209 with `class = to_accumulator`. -/
def State.aluToAccumulator (s : State) (o : AluOp) (r : Reg) : Attempt State := do
  let (res, s1) ← (s.aluOperand o r).calculate
  return (s1.setReg .a res).setOperation .noOp

/-- R209 with `class = flag_only`: "discard the numeric result". -/
def State.aluFlagOnly (s : State) (o : AluOp) (r : Reg) : Attempt State := do
  let (_, s1) ← (s.aluOperand o r).calculate
  return s1.setOperation .noOp

end Sys2Proof.Machine
end

