-- ==== Sys2Proof/Machine/Alu.lean ====
section
/-! DEFINITION. The arithmetic/logic instructions with the result to the accumulator (44_alu.md R210 to
R217): R209 with one operation each. -/

namespace Sys2Proof.Machine

/-- `ADD r` (R210). -/
def execAdd (r : Reg) (s : State) : Host.Outcome State Fault Refusal :=
  Attempt.outcome (s.aluToAccumulator .add r)

/-- `ADC r` (R211). -/
def execAdc (r : Reg) (s : State) : Host.Outcome State Fault Refusal :=
  Attempt.outcome (s.aluToAccumulator .adc r)

/-- `SUB r` (R212). -/
def execSub (r : Reg) (s : State) : Host.Outcome State Fault Refusal :=
  Attempt.outcome (s.aluToAccumulator .sub r)

/-- `SBB r` (R213). -/
def execSbb (r : Reg) (s : State) : Host.Outcome State Fault Refusal :=
  Attempt.outcome (s.aluToAccumulator .sbb r)

/-- `AND r` (R214). -/
def execAnd (r : Reg) (s : State) : Host.Outcome State Fault Refusal :=
  Attempt.outcome (s.aluToAccumulator .and r)

/-- `OR r` (R215). -/
def execOr (r : Reg) (s : State) : Host.Outcome State Fault Refusal :=
  Attempt.outcome (s.aluToAccumulator .or r)

/-- `XOR r` (R216). -/
def execXor (r : Reg) (s : State) : Host.Outcome State Fault Refusal :=
  Attempt.outcome (s.aluToAccumulator .xor r)

/-- `NOT r` (R217). -/
def execNot (r : Reg) (s : State) : Host.Outcome State Fault Refusal :=
  Attempt.outcome (s.aluToAccumulator .not r)

end Sys2Proof.Machine
end

