-- ==== Sys2Proof/Machine/AluFlags.lean ====
section
/-! DEFINITION. The flag-only arithmetic/logic instructions (44_alu.md R220 to R226): R209 with one
operation each, the numeric result discarded. -/

namespace Sys2Proof.Machine

/-- `ADDF r` (R220). -/
def execAddf (r : Reg) (s : State) : Host.Outcome State Fault Refusal :=
  Attempt.outcome (s.aluFlagOnly .add r)

/-- `ADCF r` (R221). -/
def execAdcf (r : Reg) (s : State) : Host.Outcome State Fault Refusal :=
  Attempt.outcome (s.aluFlagOnly .adc r)

/-- `SUBF r` (R222). -/
def execSubf (r : Reg) (s : State) : Host.Outcome State Fault Refusal :=
  Attempt.outcome (s.aluFlagOnly .sub r)

/-- `SBBF r` (R223). -/
def execSbbf (r : Reg) (s : State) : Host.Outcome State Fault Refusal :=
  Attempt.outcome (s.aluFlagOnly .sbb r)

/-- `ORF r` (R224). -/
def execOrf (r : Reg) (s : State) : Host.Outcome State Fault Refusal :=
  Attempt.outcome (s.aluFlagOnly .or r)

/-- `XORF r` (R225). -/
def execXorf (r : Reg) (s : State) : Host.Outcome State Fault Refusal :=
  Attempt.outcome (s.aluFlagOnly .xor r)

/-- `NOTF r` (R226). -/
def execNotf (r : Reg) (s : State) : Host.Outcome State Fault Refusal :=
  Attempt.outcome (s.aluFlagOnly .not r)

/-- The flag-only AND, which only non-default decode parameters give an opcode (R98, R85; log entry 8):
R209 with `class = flag_only` and the operation AND. -/
def execAndFlagOnly (r : Reg) (s : State) : Host.Outcome State Fault Refusal :=
  Attempt.outcome (s.aluFlagOnly .and r)

end Sys2Proof.Machine
end

