-- ==== Sys2Proof/Machine/Control.lean ====
section
/-! DEFINITION. Control transfer and halt: LPC, JFS, JFR, HLT (43_control_transfer.md). -/

namespace Sys2Proof.Machine

/-- `LPC` (R180): `PC <- HL`; the target is not checked. -/
def execLpc (s : State) : Host.Outcome State Fault Refusal :=
  .next (s.setPc s.hl)

/-- `JFS f` (R182): if flag `f` is true, `PC <- HL`. -/
def execJfs (f : Flag) (s : State) : Host.Outcome State Fault Refusal :=
  .next (if s.flag f then s.setPc s.hl else s)

/-- `JFR f` (R184): if flag `f` is false, `PC <- HL`. -/
def execJfr (f : Flag) (s : State) : Host.Outcome State Fault Refusal :=
  .next (if s.flag f then s else s.setPc s.hl)

/-- `HLT` (R186): `RUN <- Halted`. -/
def execHlt (s : State) : Host.Outcome State Fault Refusal :=
  .next { s with run := .halted }

end Sys2Proof.Machine
end

