-- ==== Sys2Proof/Machine/DataMove.lean ====
section
/-! DEFINITION. The data movement instructions LDI, MOV, STM, LDM (41_data_movement.md). A meaning acts on
the state that the fetch leaves (`fetch` in Machine/Fetch.lean): PC is past the opcode, and LDI's
immediate has been read. -/

namespace Sys2Proof.Machine

/-- `LDI d, n` (R140): after the immediate is read, "advance PC by 1, write into destination
register". -/
def execLdi (dst : Reg) (n : Byte) (s : State) : Host.Outcome State Fault Refusal :=
  Attempt.outcome do
    let s1 ← s.incPc
    return s1.setReg dst n

/-- `MOV d, s` (R144): through the ALU's temp. -/
def execMov (dst src : Reg) (s : State) : Host.Outcome State Fault Refusal :=
  let s1 := s.setT (s.reg src)
  .next (s1.setReg dst s1.t)

/-- `STM s` (R148): the register to data memory at HL. -/
def execStm (src : Reg) (s : State) : Host.Outcome State Fault Refusal :=
  Attempt.outcome (s.ramWrite s.hl (s.reg src))

/-- `LDM d` (R152): data memory at HL to the register. -/
def execLdm (dst : Reg) (s : State) : Host.Outcome State Fault Refusal :=
  Attempt.outcome do
    let v ← s.ramRead s.hl
    return s.setReg dst v

end Sys2Proof.Machine
end

