-- ==== Sys2Proof/Machine/Stack.lean ====
section
/-! DEFINITION. The stack instructions PUSH, POP, LSP (42_stack.md). SP addresses the next free cell
(R159). -/

namespace Sys2Proof.Machine

/-- `PUSH s` (R160): write at SP, then decrement SP. -/
def execPush (src : Reg) (s : State) : Host.Outcome State Fault Refusal :=
  Attempt.outcome do
    let s1 ← s.ramWrite s.sp (s.reg src)
    s1.decSp

/-- `POP d` (R165): increment SP, then read at SP. -/
def execPop (dst : Reg) (s : State) : Host.Outcome State Fault Refusal :=
  Attempt.outcome do
    let s1 ← s.incSp
    let v ← s1.ramRead s1.sp
    return s1.setReg dst v

/-- `LSP` (R170): `SP <- HL`. -/
def execLsp (s : State) : Host.Outcome State Fault Refusal :=
  .next (s.setSp s.hl)

end Sys2Proof.Machine
end

