-- ==== Sys2Proof/Machine/Dispatch.lean ====
section
/-! DEFINITION. One arm per instruction of the opcode table. -/

namespace Sys2Proof.Machine

def exec (i : Instr) (s : State) : Host.Outcome State Fault Refusal :=
  match i with
  | .ldi dst n => Sys2Proof.Machine.execLdi dst n s
  | .push src => Sys2Proof.Machine.execPush src s
  | .pop dst => Sys2Proof.Machine.execPop dst s
  | .lsp => Sys2Proof.Machine.execLsp s
  | .lpc => Sys2Proof.Machine.execLpc s
  | .mov dst src => Sys2Proof.Machine.execMov dst src s
  | .stm src => Sys2Proof.Machine.execStm src s
  | .ldm dst => Sys2Proof.Machine.execLdm dst s
  | .jfs f => Sys2Proof.Machine.execJfs f s
  | .jfr f => Sys2Proof.Machine.execJfr f s
  | .hlt => Sys2Proof.Machine.execHlt s
  | .add r => Sys2Proof.Machine.execAdd r s
  | .adc r => Sys2Proof.Machine.execAdc r s
  | .sub r => Sys2Proof.Machine.execSub r s
  | .sbb r => Sys2Proof.Machine.execSbb r s
  | .and r => Sys2Proof.Machine.execAnd r s
  | .or r => Sys2Proof.Machine.execOr r s
  | .xor r => Sys2Proof.Machine.execXor r s
  | .not r => Sys2Proof.Machine.execNot r s
  | .addf r => Sys2Proof.Machine.execAddf r s
  | .adcf r => Sys2Proof.Machine.execAdcf r s
  | .subf r => Sys2Proof.Machine.execSubf r s
  | .sbbf r => Sys2Proof.Machine.execSbbf r s
  | .orf r => Sys2Proof.Machine.execOrf r s
  | .xorf r => Sys2Proof.Machine.execXorf r s
  | .notf r => Sys2Proof.Machine.execNotf r s

end Sys2Proof.Machine
end

