-- ==== Sys2Proof/Machine/Fetch.lean ====
section
/-! DEFINITION. The Fetch phase (40_instruction_cycle.md R122), with the read of LDI's immediate that
opens its Operand phase (R140): from the state between two steps to the decoded instruction and the
state its meaning acts on. -/

namespace Sys2Proof.Machine

/-- Fetch an instruction: the opcode at PC, PC past it, the classification, and for Immediate-load the
byte at the new PC. A byte that is no instruction raises `DecodeFault(op)` after PC has been incremented
(R122, R129, R243). -/
def State.fetch (s : State) : Attempt (Decoded × State) := do
  let op ← s.romRead s.pc
  let s1 ← s.incPc
  match classify s.cfg.decode op with
  | .error _ => .error (s1.raise (.decode op))
  | .ok (.whole i) => return (i, s1)
  | .ok (.immediateLoad dst) =>
    let n ← s1.romRead s1.pc
    return (.instr (.ldi dst n), s1)

/-- The address of the second byte of an instruction that starts at an address. -/
def secondByteAddr (a : Addr) : Addr := a + 1

/-- The two bytes that an instruction at PC can have, PC's first (R80, R86). -/
def State.fetchWindow (s : State) : List Byte :=
  [s.rom.byteAt s.pc, s.rom.byteAt (secondByteAddr s.pc)]

/-- Program memory with two bytes placed where the next fetch reads them, and with capacity for them. -/
def MemoryBus.placeTwo (m : MemoryBus) (a : Addr) (x y : Byte) : MemoryBus where
  capacity := max m.capacity (max (a.toNat + 1) ((secondByteAddr a).toNat + 1))
  cells := Memory.write (Memory.write m.cells a.toNat x) (secondByteAddr a).toNat y

/-- The state with an instruction of `nbits` bits `w` (byte 0 in bits 7..0, the bits from `nbits` on 0)
placed at PC, and ready to take a step (log entry 12). -/
def State.placeInstruction (s : State) (nbits w : Nat) : State :=
  { s with
    run := .running
    fault := none
    rom := s.rom.placeTwo s.pc (BitVec.ofNat 8 (w % 2 ^ nbits))
      (BitVec.ofNat 8 (w % 2 ^ nbits / 256)) }

end Sys2Proof.Machine
end

