-- ==== Sys2Proof/Machine/Step.lean ====
section
/-! DEFINITION. One step of the core (40_instruction_cycle.md R120, R125). -/

namespace Sys2Proof.Machine

/-- The step of a Running core: fetch, then the instruction's meaning (R125). -/
def stepRunning (s : State) : Host.Outcome State Fault Refusal :=
  match s.fetch with
  | .error s1 => .next s1
  | .ok (.instr i, s1) => exec i s1
  | .ok (.andFlagOnly r, s1) => execAndFlagOnly r s1

/-- One step request. In Halted and in Faulted "the step request is ignored" (R130, R40). -/
def step (s : State) : Host.Outcome State Fault Refusal :=
  match s.run with
  | .running => stepRunning s
  | .halted => .next s
  | .faulted => .next s

/-- The state with an instruction placed where the next step fetches (log entry 12). -/
def State.withFetchWord (s : State) (nbits w : Nat) : State := s.placeInstruction nbits w

end Sys2Proof.Machine
end

