-- ==== Sys2Proof/Machine/Driver.lean ====
section
/-! DEFINITION. What the host sees and does between steps, row by row of R280's table: the status outputs
(R131), the snapshot (R43), reading, writing, sizing and clearing the two memories (R70, R275) and the load of
a program (R58). Reset is `State.applyReset` (Machine/Ops.lean). -/

namespace Sys2Proof.Machine

/-- The `halted` output, which is also the indicator that a step returns (R126, R131). -/
def State.haltedOut (s : State) : Bool := decide (s.run = .halted)

/-- The `fault` output (R131). -/
def State.faultedOut (s : State) : Bool := decide (s.run = .faulted)

/-- The code of a fault (R241). -/
def FaultRecord.code : FaultRecord → Nat
  | .memRange _ _ _ => 1
  | .decode _ => 2
  | .internal _ => 3

/-- The code of the fault record, 0 when it is empty (R241). -/
def State.faultCode (s : State) : Nat :=
  match s.fault with
  | none => 0
  | some f => f.code

/-- The host-visible snapshot (R43). -/
structure Snapshot where
  regs : Regs
  t : Byte
  sp : Addr
  pc : Addr
  flags : Flags
  run : RunState
  fault : Option FaultRecord
deriving DecidableEq, Repr

/-- Reading the snapshot, which changes nothing (R43, R260). -/
def State.snapshot (s : State) : Snapshot where
  regs := s.regs
  t := s.t
  sp := s.sp
  pc := s.pc
  flags := s.flags
  run := s.run
  fault := s.fault

/-- Loading copies a byte sequence to program memory starting at address 0, and the rest of program
memory holds zeros (R58, R36); an image longer than the capacity is a fatal load error and starts no run
(R58, 93_implementation_defined.md U1; log entry 13). -/
def State.loadProgram (s : State) (image : List Byte) : Host.Outcome State Fault Refusal :=
  if image.length ≤ s.rom.capacity then
    .next { s with rom := { s.rom with cells := Memory.writeList [] 0 image } }
  else .fault (.imageTooLong image.length s.rom.capacity)

/-! ### The host and the two memories (R70, R280) -/

/-- One of the two memories. -/
def State.memory (s : State) : MemKind → MemoryBus
  | .rom => s.rom
  | .ram => s.ram

/-- The machine with one of the two memories replaced. -/
def State.setMemory (s : State) (mem : MemKind) (m : MemoryBus) : State :=
  match mem with
  | .rom => { s with rom := m }
  | .ram => { s with ram := m }

/-- The host's read of either memory, which changes nothing (R280, R70). -/
def State.hostRead (s : State) (mem : MemKind) (a : Addr) : ReadResponse := (s.memory mem).read a

/-- The host's write of a byte string to either memory from an address on, before reset or between runs:
"write both memories freely", and to "exceed a capacity" is refused (R280; log entry 19). It is defined in
every run state, so a host write between the steps of a run, which R280 calls physically possible, is this
same move, and "later reads return the written bytes"; that no run holds one is log entry 11. -/
def State.hostWrite (s : State) (mem : MemKind) (a : Nat) (bytes : List Byte) :
    Host.Outcome State Fault Refusal :=
  let m := s.memory mem
  if a + bytes.length ≤ m.capacity then
    .next (s.setMemory mem { m with cells := Memory.writeList m.cells a bytes })
  else .fault (.hostWriteOutOfRange mem a bytes.length m.capacity)

/-- The host fixes `ROM_SIZE` and `RAM_SIZE` before the first step (R275, R56). What the memories already hold
stays, since the order of sizing, loading and providing data memory is free (R275); what a memory gains reads
as 0 (R36). A size above R56's range, or below what a memory holds, is refused (R280; log entry 19). -/
def State.sizeMemories (s : State) (romSize ramSize : Nat) : Host.Outcome State Fault Refusal :=
  if 65536 < romSize ∨ 65536 < ramSize then .fault (.sizeTooLarge romSize ramSize)
  else if Memory.fits romSize s.rom.cells && Memory.fits ramSize s.ram.cells then
    .next { s with
      rom := { s.rom with capacity := romSize }
      ram := { s.ram with capacity := ramSize } }
  else .fault (.sizeTooSmall romSize ramSize)

/-- The host clears a memory: every byte reads 0 and the capacity stays (R280). -/
def State.clearMemory (s : State) (mem : MemKind) : State :=
  s.setMemory mem { s.memory mem with cells := [] }

/-- Data memory zero-filled, as before a first run (R275, R36). -/
def State.clearDataMemory (s : State) : State := s.clearMemory .ram

end Sys2Proof.Machine
end

