-- ==== Sys2Proof/Machine/Ports.lean ====
section
/-! DEFINITION. The requests a step makes on the two memory ports, in order (20_memory.md R57, R62). -/

namespace Sys2Proof.Machine

/-- A request of the core on its program port or its data port (R57). -/
inductive PortRequest where
  | programRead (a : Addr)
  | dataRead (a : Addr)
  | dataWrite (a : Addr) (v : Byte)
deriving DecidableEq, Repr

/-- The data requests of an instruction, on the state that the fetch leaves (R62). -/
def dataRequests (i : Instr) (s : State) : List PortRequest :=
  match i with
  | .stm src => [.dataWrite s.hl (s.reg src)]
  | .ldm _ => [.dataRead s.hl]
  | .push src => [.dataWrite s.sp (s.reg src)]
  | .pop _ => match inc16 s.cfg.wrap16 s.sp with
    | some w => [.dataRead w]
    | none => []
  | .ldi _ _ => []
  | .lsp => []
  | .lpc => []
  | .mov _ _ => []
  | .jfs _ => []
  | .jfr _ => []
  | .hlt => []
  | .add _ => []
  | .adc _ => []
  | .sub _ => []
  | .sbb _ => []
  | .and _ => []
  | .or _ => []
  | .xor _ => []
  | .not _ => []
  | .addf _ => []
  | .adcf _ => []
  | .subf _ => []
  | .sbbf _ => []
  | .orf _ => []
  | .xorf _ => []
  | .notf _ => []

/-- The program requests of a step: the opcode, and for Immediate-load the immediate (R62). -/
def programRequests (s : State) : List PortRequest :=
  match s.romRead s.pc, s.incPc with
  | .ok op, .ok s1 =>
    match classify s.cfg.decode op with
    | .ok (.immediateLoad _) => [.programRead s.pc, .programRead s1.pc]
    | .ok (.whole _) => [.programRead s.pc]
    | .error _ => [.programRead s.pc]
  | _, _ => [.programRead s.pc]

/-- Every request of one step, in order; none when the core is not Running (R130). -/
def portRequests (s : State) : List PortRequest :=
  match s.run with
  | .halted => []
  | .faulted => []
  | .running =>
    programRequests s ++
      match s.fetch with
      | .ok (.instr i, s1) => dataRequests i s1
      | .ok (.andFlagOnly _, _) => []
      | .error _ => []

/-- Whether the addressed memory answers a request with `ok` (R57). -/
def PortRequest.inRange (s : State) : PortRequest → Bool
  | .programRead a => decide (a.toNat < s.rom.capacity)
  | .dataRead a => decide (a.toNat < s.ram.capacity)
  | .dataWrite a _ => decide (a.toNat < s.ram.capacity)

end Sys2Proof.Machine
end

