-- ==== Sys2Proof/WellFormed.lean ====
section
/-! DEFINITION. Well-formed parameters (the bijections of 00_scope.md R8) and well-formed
instructions (those that the parameters give an encoding). -/

namespace Sys2Proof

/-- `REG_CODE` is a bijection from 0..6 to the seven registers. -/
def DecodeConfig.regCodeOk (c : DecodeConfig) : Bool := c.regCode.isPerm Reg.all

/-- `FLAG_CODE` is a bijection from 0..3 to the four flags. -/
def DecodeConfig.flagCodeOk (c : DecodeConfig) : Bool := c.flagCode.isPerm Flag.all

/-- `ALU_OP_CODE` is a bijection from 0..7 to the eight operations. -/
def DecodeConfig.opCodeOk (c : DecodeConfig) : Bool := c.aluOpCode.isPerm AluOp.all

/-- The decode parameters are within their types of R8. -/
def DecodeConfig.wellFormed (c : DecodeConfig) : Bool :=
  c.regCodeOk && c.flagCodeOk && c.opCodeOk

/-- The parameters are within their types of R8. -/
def Config.wellFormed (c : Config) : Bool := c.decode.wellFormed

/-- The flag-only class takes the opcodes with top bits `11` whose low 3 bits are not `100`: those are
the conditional jumps (R85, R87, R98). (0xFF, which is HLT, has 7 in both fields, and 7 codes no
register.) -/
def DecodeConfig.flagOnlyEncodable (c : DecodeConfig) (o : AluOp) (r : Reg) : Bool :=
  c.aluCtl o r != 4#3

/-- An instruction is well-formed when the parameters give it an opcode. Only a flag-only
arithmetic/logic instruction can fail to have one, and none fails under the default parameters. -/
def Instr.wellFormed (c : DecodeConfig) (i : Instr) : Bool :=
  match i.alu? with
  | some (.flagOnly, o, r) => c.flagOnlyEncodable o r
  | some (.toAccumulator, _, _) => true
  | none => true

/-- The same for everything an opcode can select. -/
def Decoded.wellFormed (c : DecodeConfig) : Decoded → Bool
  | .instr i => i.wellFormed c
  | .andFlagOnly r => c.flagOnlyEncodable .and r

end Sys2Proof
end

