-- ==== Sys2Proof/Safety.lean ====
section
/-! DEFINITION. The terms that statements about the machine use: the invariant of its states, and what
one instruction may write. -/

namespace Sys2Proof.Machine

/-- `FAULT` is empty exactly while `RUN` is Running or Halted (R41, R246). -/
def State.faultRecordOk (s : State) : Bool := s.fault.isSome == decide (s.run = .faulted)

/-- `OP` is no-op whenever the core is between instructions and not Faulted (R32). -/
def State.opOk (s : State) : Bool := decide (s.run = .faulted) || decide (s.op = .noOp)

/-- The invariant of the machine between two steps: both memories are canonical and within R56's range,
the parameters are within R8's types, and the run state agrees with the fault record and with `OP`. -/
def State.Inv (s : State) : Prop :=
  s.rom.wf = true ∧ s.ram.wf = true ∧ s.cfg.wellFormed = true ∧ s.faultRecordOk = true ∧ s.opOk = true

/-- A run is safe at a state when the core is not Faulted: "The Faulted state is never a successful end
of a run" (R246, R262). -/
def State.Safe (s : State) : Prop := s.run ≠ .faulted

/-- What an instruction may write, beside PC: registers, SP, T, the flags, OP, RUN, and one byte of data
memory. -/
structure Writes where
  regs : List Reg := []
  sp : Bool := false
  temp : Bool := false
  flags : Bool := false
  op : Bool := false
  run : Bool := false
  ram : Option Addr := none

/-- From `s` to `t` nothing but PC and what `w` lists has changed: every other register, SP, T, the
flags, OP, RUN, FAULT, every byte of both memories, both capacities, the parameters and the model's own
counter are as before. -/
structure OnlyWrites (w : Writes) (s t : State) : Prop where
  regs : ∀ r, r ∉ w.regs → t.reg r = s.reg r
  sp : w.sp = false → t.sp = s.sp
  temp : w.temp = false → t.t = s.t
  flags : w.flags = false → t.flags = s.flags
  op : w.op = false → t.op = s.op
  run : w.run = false → t.run = s.run
  fault : t.fault = s.fault
  rom : t.rom = s.rom
  ramCapacity : t.ram.capacity = s.ram.capacity
  ramBytes : ∀ a, w.ram ≠ some a → t.ram.byteAt a = s.ram.byteAt a
  cfg : t.cfg = s.cfg
  freeCount : t.freeCount = s.freeCount

/-- From `s` to `t` the step has faulted with `f` and changed nothing else but what `raise` says of OP and
the model's own counter (R246, R129): registers, T, flags, data and program memory, SP and PC are as in
`s`. -/
structure FaultedFrom (f : FaultRecord) (s t : State) : Prop where
  run : t.run = .faulted
  fault : t.fault = some f
  regs : t.regs = s.regs
  sp : t.sp = s.sp
  pc : t.pc = s.pc
  temp : t.t = s.t
  flags : t.flags = s.flags
  rom : t.rom = s.rom
  ram : t.ram = s.ram
  cfg : t.cfg = s.cfg

/-- The four flags of an intermediate `i`, as R202 words them, with the sign flag of R206's mode. -/
structure FlagsFrom (m : SignMode) (i : Int) (f : Flags) : Prop where
  z : f.z = true ↔ i = 0
  cy : f.cy = true ↔ i < 0 ∨ 255 < i
  s : f.s = true ↔ m = .bit7 ∧ 128 ≤ i % 256
  p : f.p = true ↔ i % 2 = 0

/-- The operand of NOT by `NOT_OPERAND` (R217). -/
def notOperand (s : State) (r : Reg) : Byte :=
  match s.cfg.notOperand with
  | .acc => s.reg .a
  | .temp => s.reg r

/-- The arithmetic of PC and SP does not fault at 0xFFFF or 0x0000, or the word is not that end of the
range (R27). -/
def mayMove16 (s : State) (w last : Addr) : Prop := s.cfg.wrap16 = .fault → w ≠ last

/-- The register codes of R22. -/
def specRegCode : Reg → Byte
  | .a => 0
  | .b => 1
  | .c => 2
  | .d => 3
  | .e => 4
  | .h => 5
  | .l => 6

/-- The flag codes of R30. -/
def specFlagCode : Flag → Byte
  | .z => 0
  | .s => 1
  | .p => 2
  | .cy => 3

/-- The 56 illegal bytes, in the four groups of R95's table. -/
def illegalOpcodes : List Byte :=
  [0x08, 0x09, 0x0A, 0x0B, 0x0C, 0x0D, 0x0E, 0x10, 0x11, 0x12, 0x13, 0x14, 0x15, 0x16,
   0x18, 0x19, 0x1A, 0x1B, 0x1C, 0x1D, 0x1E, 0x20, 0x21, 0x22, 0x23, 0x25, 0x26,
   0x28, 0x29, 0x2A, 0x2B, 0x2C, 0x2D, 0x2E, 0x30, 0x31, 0x32, 0x33, 0x34, 0x35, 0x36] ++
  [0x7F] ++
  [0xB8, 0xB9, 0xBA, 0xBB, 0xBC, 0xBD, 0xBE, 0xBF] ++
  [0xF8, 0xF9, 0xFA, 0xFB, 0xFD, 0xFE]

/-- The register an instruction writes, if any (R23, R132). -/
def destination : Instr → Option Reg
  | .ldi dst _ => some dst
  | .mov dst _ => some dst
  | .ldm dst => some dst
  | .pop dst => some dst
  | .push _ => none
  | .lsp => none
  | .lpc => none
  | .stm _ => none
  | .jfs _ => none
  | .jfr _ => none
  | .hlt => none
  | .add _ => some .a
  | .adc _ => some .a
  | .sub _ => some .a
  | .sbb _ => some .a
  | .and _ => some .a
  | .or _ => some .a
  | .xor _ => some .a
  | .not _ => some .a
  | .addf _ => none
  | .adcf _ => none
  | .subf _ => none
  | .sbbf _ => none
  | .orf _ => none
  | .xorf _ => none
  | .notf _ => none

/-- The address in data memory that an instruction stores to, if it stores (R62). -/
def storeAddress (i : Instr) (s : State) : Option Addr :=
  match i with
  | .stm _ => some s.hl
  | .push _ => some s.sp
  | .ldi _ _ => none
  | .pop _ => none
  | .lsp => none
  | .lpc => none
  | .mov _ _ => none
  | .ldm _ => none
  | .jfs _ => none
  | .jfr _ => none
  | .hlt => none
  | .add _ => none
  | .adc _ => none
  | .sub _ => none
  | .sbb _ => none
  | .and _ => none
  | .or _ => none
  | .xor _ => none
  | .not _ => none
  | .addf _ => none
  | .adcf _ => none
  | .subf _ => none
  | .sbbf _ => none
  | .orf _ => none
  | .xorf _ => none
  | .notf _ => none

end Sys2Proof.Machine
end

