-- ==== Sys2Proof/Certificates/Slice0/Obligations.lean ====
section
/-! DEFINITION. The statements about the model, for the provers. A fault of the core is a next state, the
Faulted state of R246 (log entry 3). In Faulted, OP is a free value (log entry 4), and no statement says
what it is. -/

open Sys2Proof Sys2Proof.Machine

/-! ### Reset, registers, selectors -/

/-- R270, R271, R42: the reset input gives every piece of core state its reset value, touches neither
memory, and power-on is the same as after reset, with a data memory of zeros. -/
def Obligations.ResetClearsCoreKeepsMemories : Prop :=
  ∀ s : State,
    (∀ r, s.applyReset.reg r = 0) ∧ s.applyReset.hl = 0 ∧ s.applyReset.sp = 0 ∧
    s.applyReset.pc = 0 ∧ s.applyReset.t = 0 ∧ (∀ k, s.applyReset.flag k = false) ∧
    s.applyReset.op = .noOp ∧ s.applyReset.run = .running ∧ s.applyReset.fault = none ∧
    s.applyReset.rom = s.rom ∧ s.applyReset.ram = s.ram ∧ s.applyReset.cfg = s.cfg ∧
    State.reset.applyReset = State.reset ∧ ∀ a, State.reset.ram.byteAt a = 0

/-- R24: the composite pointer is `H * 256 + L`. -/
def Obligations.CompositePointerIsHL : Prop :=
  ∀ s : State, s.hl.toNat = (s.reg .h).toNat * 256 + (s.reg .l).toNat

/-! ### Encoding -/

/-- For every well-formed choice of the decode parameters and everything an opcode can select that these
give an encoding, decoding its encoding gives it back, with the bytes after it (R82, R83, R85, R87, R98). -/
def Obligations.DecodeOfEncode : Prop :=
  ∀ (c : DecodeConfig), c.wellFormed = true → ∀ (i : Decoded), i.wellFormed c = true →
    ∀ rest : List Byte, decode c (encodeDecoded c i ++ rest) = .ok (i, rest)

/-- Each byte string has one meaning: what the decoder reads is well-formed and its encoding is the bytes
that were read (R80, R87, R88). -/
def Obligations.EncodeOfDecode : Prop :=
  ∀ (c : DecodeConfig), c.wellFormed = true → ∀ (bytes rest : List Byte) (i : Decoded),
    decode c bytes = .ok (i, rest) → i.wellFormed c = true ∧ encodeDecoded c i ++ rest = bytes

/-- The opcode formulas of R90's table under the default parameters. -/
def Obligations.OpcodeFormulas : Prop :=
  ∀ (r x : Reg) (f : Flag) (n : Byte),
    let enc := encode Config.specDefault.decode
    let c := specRegCode
    enc (.ldi r n) = [0x00 + c r, n] ∧ enc (.push r) = [0x07 + 8 * c r] ∧
    enc (.pop r) = [0x38 + c r] ∧ enc .lsp = [0x3F] ∧ enc .lpc = [0x24] ∧
    enc (.mov r x) = [0x40 + 8 * c x + c r] ∧ enc (.stm r) = [0x47 + 8 * c r] ∧
    enc (.ldm r) = [0x78 + c r] ∧ enc (.jfs f) = [0xCC + 16 * specFlagCode f] ∧
    enc (.jfr f) = [0xC4 + 16 * specFlagCode f] ∧ enc .hlt = [0xFF] ∧
    enc (.add r) = [0x80 + 8 * c r] ∧ enc (.adc r) = [0x81 + 8 * c r] ∧
    enc (.sub r) = [0x82 + 8 * c r] ∧ enc (.sbb r) = [0x83 + 8 * c r] ∧
    enc (.and r) = [0x84 + 8 * c r] ∧ enc (.or r) = [0x85 + 8 * c r] ∧
    enc (.xor r) = [0x86 + 8 * c r] ∧ enc (.not r) = [0x87 + 8 * c r] ∧
    enc (.addf r) = [0xC0 + 8 * c r] ∧ enc (.adcf r) = [0xC1 + 8 * c r] ∧
    enc (.subf r) = [0xC2 + 8 * c r] ∧ enc (.sbbf r) = [0xC3 + 8 * c r] ∧
    enc (.orf r) = [0xC5 + 8 * c r] ∧ enc (.xorf r) = [0xC6 + 8 * c r] ∧
    enc (.notf r) = [0xC7 + 8 * c r]

/-- R95: under the default parameters the bytes that decode to no instruction are the 56 of R95's
table. -/
def Obligations.IllegalOpcodesAreThe56 : Prop :=
  illegalOpcodes.length = 56 ∧
  ∀ op : Byte, (∃ e, classify Config.specDefault.decode op = .error e) ↔ op ∈ illegalOpcodes

/-- R85, R90: under the default parameters every instruction of the table has an encoding and no opcode
selects the flag-only AND. -/
def Obligations.DefaultParametersEncodeTheTable : Prop :=
  (∀ i : Instr, i.wellFormed Config.specDefault.decode = true) ∧
  ∀ (bytes rest : List Byte) (r : Reg),
    decode Config.specDefault.decode bytes ≠ .ok (.andFlagOnly r, rest)

/-- Words written out from R91's map decode to the instruction they stand for. -/
def Obligations.MapWordsDecode : Prop :=
  let dec := decode Config.specDefault.decode
  dec [0x05, 0x80] = .ok (.instr (.ldi .h 0x80), []) ∧
  dec [0x41] = .ok (.instr (.mov .b .a), []) ∧
  dec [0x0F] = .ok (.instr (.push .b), []) ∧
  dec [0xDC] = .ok (.instr (.jfs .s), []) ∧
  dec [0x88] = .ok (.instr (.add .b), []) ∧
  dec [0xDA] = .ok (.instr (.subf .d), []) ∧
  dec [0xFF] = .ok (.instr .hlt, [])

/-! ### The step -/

/-- R125: when the core is Running and the bytes at PC decode to an instruction whose bytes are all in
program memory, the step is the instruction's meaning on the state with PC past the opcode. (That a meaning
starts there is the model's choice, log entry 6.) -/
def Obligations.StepRunsDecodedInstruction : Prop :=
  ∀ (s : State) (i : Instr) (rest : List Byte), s.run = .running →
    s.pc.toNat < s.rom.capacity → mayMove16 s s.pc 0xFFFF#16 →
    (rest = [] → (s.pc + 1).toNat < s.rom.capacity) →
    decode s.cfg.decode [s.rom.byteAt s.pc, s.rom.byteAt (s.pc + 1)] = .ok (.instr i, rest) →
    step s = exec i (s.setPc (s.pc + 1))

/-- R126, R262: a step always answers a next state, whatever the state, and a Running core is never
stuck. -/
def Obligations.StepAlwaysAnswersNext : Prop :=
  ∀ s : State, ∃ t, step s = .next t

/-- R130, R40: in Halted and in Faulted any number of step requests changes nothing. -/
def Obligations.StoppedCoreIgnoresSteps : Prop :=
  ∀ (n : Nat) (s : State), s.run ≠ .running → Sys2Proof.core.run n s = .next s

/-- R126: Halted is entered only via the 0xFF opcode, and that opcode enters it. -/
def Obligations.HaltedExactlyByOpcodeFF : Prop :=
  ∀ s t : State, s.run = .running → step s = .next t →
    (t.run = .halted ↔
      s.pc.toNat < s.rom.capacity ∧ mayMove16 s s.pc 0xFFFF#16 ∧ s.rom.byteAt s.pc = 0xFF)

/-- R52, R68, R17: no step writes program memory, a capacity or a parameter. -/
def Obligations.StepKeepsProgramAndParameters : Prop :=
  ∀ s t : State, step s = .next t →
    t.rom = s.rom ∧ t.ram.capacity = s.ram.capacity ∧ t.cfg = s.cfg

/-- Every step keeps the invariant: both memories canonical and within their capacities, the parameters
within their types, FAULT empty exactly when not Faulted (R41), OP no-op unless Faulted (R32). -/
def Obligations.StepKeepsInv : Prop :=
  ∀ s t : State, s.Inv → step s = .next t → t.Inv

/-- The reset state has the invariant. -/
def Obligations.ResetHasInv : Prop := State.reset.Inv

/-- The host's own moves keep the invariant: the reset input, from any run state (R273), the load of a
program that fits (R58), sizing the memories, clearing and writing either memory (R280, log entry 19). -/
def Obligations.HostMovesKeepInv : Prop :=
  ∀ s : State, s.Inv → s.applyReset.Inv ∧ s.clearDataMemory.Inv ∧ (∀ mem, (s.clearMemory mem).Inv) ∧
    (∀ (image : List Byte) (t : State), s.loadProgram image = .next t → t.Inv) ∧
    (∀ (romSize ramSize : Nat) (t : State), s.sizeMemories romSize ramSize = .next t → t.Inv) ∧
    ∀ (mem : MemKind) (a : Nat) (bytes : List Byte) (t : State),
      s.hostWrite mem a bytes = .next t → t.Inv

/-! ### Frames over all instructions -/

/-- R132, R23: an instruction changes no register but its destination. -/
def Obligations.OnlyTheDestinationRegisterChanges : Prop :=
  ∀ (i : Instr) (s t : State), exec i s = .next t →
    ∀ r, destination i ≠ some r → t.reg r = s.reg r

/-- R29: the flags are those of the ALU function after an arithmetic/logic instruction of either class,
and unchanged after every other instruction. -/
def Obligations.FlagsWrittenByArithmeticOnly : Prop :=
  ∀ (i : Instr) (s t : State), exec i s = .next t →
    match i.alu? with
    | some (_, o, r) => t.flags = (alu s.cfg o (s.reg .a) (s.reg r) s.flags.cy).2
    | none => t.flags = s.flags

/-- R31: T is written by MOV and by the arithmetic/logic instructions, with the value that the source
register had, and by no other instruction. -/
def Obligations.TempWrittenByMovAndArithmeticOnly : Prop :=
  ∀ (i : Instr) (s t : State), exec i s = .next t →
    (∀ k o r, i.alu? = some (k, o, r) → t.t = s.reg r) ∧
    (∀ dst src, i = .mov dst src → t.t = s.reg src) ∧
    (i.alu? = none → (∀ dst src, i ≠ .mov dst src) → t.t = s.t)

/-- R132, R25: SP changes in LSP, PUSH and POP only. -/
def Obligations.StackPointerWrittenByStackOnly : Prop :=
  ∀ (i : Instr) (s t : State), exec i s = .next t → i ≠ .lsp → (∀ r, i ≠ .push r) →
    (∀ r, i ≠ .pop r) → t.sp = s.sp

/-- R62, R54: data memory changes at the address that STM or PUSH stores to and nowhere else. -/
def Obligations.MemoryChangesOnlyWhereStored : Prop :=
  ∀ (i : Instr) (s t : State), exec i s = .next t →
    ∀ a, storeAddress i s ≠ some a → t.ram.byteAt a = s.ram.byteAt a

/-! ### Data movement -/

/-- LDI (R140), after the immediate has been read: the register takes the immediate, PC advances by 1,
nothing else changes. (That the immediate is read by the fetch is the model's choice, log entry 6.) -/
def Obligations.LdiLoadsImmediate : Prop :=
  ∀ (dst : Reg) (n : Byte) (s : State), mayMove16 s s.pc 0xFFFF#16 →
    ∃ t, exec (.ldi dst n) s = .next t ∧ t.reg dst = n ∧ t.pc = s.pc + 1 ∧
      OnlyWrites { regs := [dst] } s t

/-- LDI as a whole step (R140, S1): opcode and immediate in program memory, the register loaded, PC two
past its pre-fetch value, under the default parameters. -/
def Obligations.LdiStepAdvancesPcByTwo : Prop :=
  ∀ (s : State) (dst : Reg), s.run = .running → s.cfg = Config.specDefault →
    s.pc.toNat < s.rom.capacity → (s.pc + 1).toNat < s.rom.capacity →
    s.rom.byteAt s.pc = specRegCode dst →
    ∃ t, step s = .next t ∧ t.reg dst = s.rom.byteAt (s.pc + 1) ∧ t.pc = s.pc + 2 ∧
      OnlyWrites { regs := [dst] } s t

/-- MOV (R144): the destination and T take the source's value. -/
def Obligations.MovCopiesThroughTemp : Prop :=
  ∀ (dst src : Reg) (s : State),
    ∃ t, exec (.mov dst src) s = .next t ∧ t.reg dst = s.reg src ∧ t.t = s.reg src ∧ t.pc = s.pc ∧
      OnlyWrites { regs := [dst], temp := true } s t

/-- STM (R148) in range: the byte at HL takes the register. -/
def Obligations.StmStoresAtHL : Prop :=
  ∀ (src : Reg) (s : State), s.hl.toNat < s.ram.capacity →
    ∃ t, exec (.stm src) s = .next t ∧ t.ram.byteAt s.hl = s.reg src ∧ t.pc = s.pc ∧
      OnlyWrites { ram := some s.hl } s t

/-- LDM (R152) in range: the register takes the byte at the HL of before the instruction. -/
def Obligations.LdmLoadsFromHL : Prop :=
  ∀ (dst : Reg) (s : State), s.hl.toNat < s.ram.capacity →
    ∃ t, exec (.ldm dst) s = .next t ∧ t.reg dst = s.ram.byteAt s.hl ∧ t.pc = s.pc ∧
      OnlyWrites { regs := [dst] } s t

/-! ### Stack -/

/-- PUSH (R160) in range: the byte at the old SP takes the register, then SP is decremented. -/
def Obligations.PushWritesThenDecrements : Prop :=
  ∀ (src : Reg) (s : State), s.sp.toNat < s.ram.capacity → mayMove16 s s.sp 0x0000#16 →
    ∃ t, exec (.push src) s = .next t ∧ t.ram.byteAt s.sp = s.reg src ∧ t.sp = s.sp - 1 ∧
      t.pc = s.pc ∧ OnlyWrites { sp := true, ram := some s.sp } s t

/-- POP (R165) in range: SP is incremented, then the register takes the byte at it. -/
def Obligations.PopIncrementsThenReads : Prop :=
  ∀ (dst : Reg) (s : State), mayMove16 s s.sp 0xFFFF#16 → (s.sp + 1).toNat < s.ram.capacity →
    ∃ t, exec (.pop dst) s = .next t ∧ t.reg dst = s.ram.byteAt (s.sp + 1) ∧ t.sp = s.sp + 1 ∧
      t.pc = s.pc ∧ OnlyWrites { regs := [dst], sp := true } s t

/-- R166(d): PUSH x then POP y copies x to y through memory, restores SP and leaves the byte in the
cell. -/
def Obligations.PushThenPopCopies : Prop :=
  ∀ (x y : Reg) (s : State), s.sp.toNat < s.ram.capacity → mayMove16 s s.sp 0x0000#16 →
    ∃ t u, exec (.push x) s = .next t ∧ exec (.pop y) t = .next u ∧ u.reg y = s.reg x ∧
      u.sp = s.sp ∧ u.ram.byteAt s.sp = s.reg x ∧
      OnlyWrites { regs := [y], ram := some s.sp } s u

/-- LSP (R170): SP takes the composite pointer, unchecked. -/
def Obligations.LspSetsStackPointer : Prop :=
  ∀ s : State, ∃ t, exec .lsp s = .next t ∧
    t.sp.toNat = (s.reg .h).toNat * 256 + (s.reg .l).toNat ∧ t.pc = s.pc ∧
    OnlyWrites { sp := true } s t

/-! ### Control transfer -/

/-- LPC (R180): PC takes the composite pointer, unchecked. -/
def Obligations.LpcJumpsToHL : Prop :=
  ∀ s : State, ∃ t, exec .lpc s = .next t ∧
    t.pc.toNat = (s.reg .h).toNat * 256 + (s.reg .l).toNat ∧ OnlyWrites {} s t

/-- JFS and JFR (R182, R184): with the selected flag true JFS sets PC to the composite pointer and JFR
leaves PC; with it false the other way about. -/
def Obligations.ConditionalJumps : Prop :=
  ∀ (f : Flag) (s : State),
    (∃ t, exec (.jfs f) s = .next t ∧ t.pc = (if s.flag f = true then s.hl else s.pc) ∧
      OnlyWrites {} s t) ∧
    (∃ t, exec (.jfr f) s = .next t ∧ t.pc = (if s.flag f = false then s.hl else s.pc) ∧
      OnlyWrites {} s t)

/-- HLT (R186): the core is Halted and nothing else changes. -/
def Obligations.HltHalts : Prop :=
  ∀ s : State, ∃ t, exec .hlt s = .next t ∧ t.run = .halted ∧ t.pc = s.pc ∧
    OnlyWrites { run := true } s t

/-! ### Arithmetic and logic, result to the accumulator -/

/-- ADD and ADC (R210, R211). -/
def Obligations.AdditionToAccumulator : Prop :=
  ∀ (r : Reg) (s : State),
    let a : Int := (s.reg .a).toNat
    let t : Int := (s.reg r).toNat
    let c : Int := if s.flags.cy then 1 else 0
    (∃ u, exec (.add r) s = .next u ∧ ((u.reg .a).toNat : Int) = (a + t) % 256 ∧ u.t = s.reg r ∧
      FlagsFrom s.cfg.signMode (a + t) u.flags ∧ u.op = .noOp ∧ u.pc = s.pc ∧
      OnlyWrites { regs := [.a], temp := true, flags := true, op := true } s u) ∧
    (∃ u, exec (.adc r) s = .next u ∧ ((u.reg .a).toNat : Int) = (a + t + c) % 256 ∧
      u.t = s.reg r ∧ FlagsFrom s.cfg.signMode (a + t + c) u.flags ∧ u.op = .noOp ∧ u.pc = s.pc ∧
      OnlyWrites { regs := [.a], temp := true, flags := true, op := true } s u)

/-- SUB and SBB (R212, R213). -/
def Obligations.SubtractionToAccumulator : Prop :=
  ∀ (r : Reg) (s : State),
    let a : Int := (s.reg .a).toNat
    let t : Int := (s.reg r).toNat
    let c : Int := if s.flags.cy then 1 else 0
    (∃ u, exec (.sub r) s = .next u ∧ ((u.reg .a).toNat : Int) = (a - t) % 256 ∧ u.t = s.reg r ∧
      FlagsFrom s.cfg.signMode (a - t) u.flags ∧ u.op = .noOp ∧ u.pc = s.pc ∧
      OnlyWrites { regs := [.a], temp := true, flags := true, op := true } s u) ∧
    (∃ u, exec (.sbb r) s = .next u ∧ ((u.reg .a).toNat : Int) = (a - t - c) % 256 ∧
      u.t = s.reg r ∧ FlagsFrom s.cfg.signMode (a - t - c) u.flags ∧ u.op = .noOp ∧ u.pc = s.pc ∧
      OnlyWrites { regs := [.a], temp := true, flags := true, op := true } s u)

/-- AND, OR and XOR (R214, R215, R216): the bitwise result, its flags, and the carry cleared. -/
def Obligations.LogicToAccumulator : Prop :=
  ∀ (r : Reg) (s : State),
    let w : Writes := { regs := [.a], temp := true, flags := true, op := true }
    (∃ u, exec (.and r) s = .next u ∧ u.reg .a = s.reg .a &&& s.reg r ∧ u.t = s.reg r ∧
      u.flags.cy = false ∧ FlagsFrom s.cfg.signMode (u.reg .a).toNat u.flags ∧ u.op = .noOp ∧
      u.pc = s.pc ∧ OnlyWrites w s u) ∧
    (∃ u, exec (.or r) s = .next u ∧ u.reg .a = s.reg .a ||| s.reg r ∧ u.t = s.reg r ∧
      u.flags.cy = false ∧ FlagsFrom s.cfg.signMode (u.reg .a).toNat u.flags ∧ u.op = .noOp ∧
      u.pc = s.pc ∧ OnlyWrites w s u) ∧
    (∃ u, exec (.xor r) s = .next u ∧ u.reg .a = s.reg .a ^^^ s.reg r ∧ u.t = s.reg r ∧
      u.flags.cy = false ∧ FlagsFrom s.cfg.signMode (u.reg .a).toNat u.flags ∧ u.op = .noOp ∧
      u.pc = s.pc ∧ OnlyWrites w s u)

/-- NOT (R217), with its parameters: the result is the bitwise complement of the operand in both widths;
the intermediate is 255 less the operand in 8 bits and -1 less the operand in 16. -/
def Obligations.NotComplementsOperand : Prop :=
  ∀ (r : Reg) (s : State),
    let x : Int := (notOperand s r).toNat
    ∃ u, exec (.not r) s = .next u ∧ u.reg .a = ~~~ (notOperand s r) ∧ u.t = s.reg r ∧
      FlagsFrom s.cfg.signMode (if s.cfg.notWidth = .w8 then 255 - x else -1 - x) u.flags ∧
      u.op = .noOp ∧ u.pc = s.pc ∧
      OnlyWrites { regs := [.a], temp := true, flags := true, op := true } s u

/-! ### Arithmetic and logic, flags only -/

/-- ADDF, ADCF, SUBF, SBBF (R220 to R223): the flags of the sum or difference and T, no register. -/
def Obligations.FlagOnlyArithmetic : Prop :=
  ∀ (r : Reg) (s : State),
    let a : Int := (s.reg .a).toNat
    let t : Int := (s.reg r).toNat
    let c : Int := if s.flags.cy then 1 else 0
    let w : Writes := { temp := true, flags := true, op := true }
    (∃ u, exec (.addf r) s = .next u ∧ u.t = s.reg r ∧ FlagsFrom s.cfg.signMode (a + t) u.flags ∧
      u.op = .noOp ∧ u.pc = s.pc ∧ OnlyWrites w s u) ∧
    (∃ u, exec (.adcf r) s = .next u ∧ u.t = s.reg r ∧
      FlagsFrom s.cfg.signMode (a + t + c) u.flags ∧ u.op = .noOp ∧ u.pc = s.pc ∧
      OnlyWrites w s u) ∧
    (∃ u, exec (.subf r) s = .next u ∧ u.t = s.reg r ∧ FlagsFrom s.cfg.signMode (a - t) u.flags ∧
      u.op = .noOp ∧ u.pc = s.pc ∧ OnlyWrites w s u) ∧
    (∃ u, exec (.sbbf r) s = .next u ∧ u.t = s.reg r ∧
      FlagsFrom s.cfg.signMode (a - t - c) u.flags ∧ u.op = .noOp ∧ u.pc = s.pc ∧
      OnlyWrites w s u)

/-- ORF, XORF, NOTF (R224 to R226): the flags of the bitwise result and T, no register. -/
def Obligations.FlagOnlyLogic : Prop :=
  ∀ (r : Reg) (s : State),
    let x : Int := (notOperand s r).toNat
    let w : Writes := { temp := true, flags := true, op := true }
    (∃ u, exec (.orf r) s = .next u ∧ u.t = s.reg r ∧
      FlagsFrom s.cfg.signMode (s.reg .a ||| s.reg r).toNat u.flags ∧ u.op = .noOp ∧ u.pc = s.pc ∧
      OnlyWrites w s u) ∧
    (∃ u, exec (.xorf r) s = .next u ∧ u.t = s.reg r ∧
      FlagsFrom s.cfg.signMode (s.reg .a ^^^ s.reg r).toNat u.flags ∧ u.op = .noOp ∧ u.pc = s.pc ∧
      OnlyWrites w s u) ∧
    (∃ u, exec (.notf r) s = .next u ∧ u.t = s.reg r ∧
      FlagsFrom s.cfg.signMode (if s.cfg.notWidth = .w8 then 255 - x else -1 - x) u.flags ∧
      u.op = .noOp ∧ u.pc = s.pc ∧ OnlyWrites w s u)

/-- S4, R209: "Compare-class arithmetic never mutates the accumulator, but updates all four flags
identically to the corresponding non-compare operation". -/
def Obligations.FlagOnlyAgreesWithAccumulatorForm : Prop :=
  ∀ (o : AluOp) (r : Reg) (j : Instr) (s : State), flagInstr o r = .instr j →
    ∃ t u, exec (accInstr o r) s = .next t ∧ exec j s = .next u ∧ u.flags = t.flags ∧ u.t = t.t ∧
      u.pc = t.pc ∧ ∀ x, u.reg x = s.reg x

/-- R222: SUBF is the compare. -/
def Obligations.SubfCompares : Prop :=
  ∀ (r : Reg) (s : State), ∃ t, exec (.subf r) s = .next t ∧
    (t.flags.z = true ↔ s.reg .a = s.reg r) ∧
    (t.flags.cy = true ↔ (s.reg .a).toNat < (s.reg r).toNat) ∧ t.reg .a = s.reg .a

/-- R98, R209: with `ALU_LAYOUT = op_src_reg_ctl` and the other parameters at their defaults the opcodes
`11 100 rrr` with `rrr` not 4 are a flag-only AND. (The instruction has no row in the opcode table; that it
exists there is read from R98 by inference, log entry 8.) -/
def Obligations.FlagOnlyAndUnderOtherLayout : Prop :=
  ∀ (s : State) (r : Reg), s.run = .running → s.pc.toNat < s.rom.capacity →
    s.cfg = { Config.specDefault with
      decode := { Config.specDefault.decode with aluLayout := .opSrcRegCtl } } →
    r ≠ .e → s.rom.byteAt s.pc = 0xE0 + specRegCode r →
    ∃ t, step s = .next t ∧ t.t = s.reg r ∧
      FlagsFrom s.cfg.signMode (s.reg .a &&& s.reg r).toNat t.flags ∧ t.op = .noOp ∧
      t.pc = s.pc + 1 ∧
      OnlyWrites { temp := true, flags := true, op := true } s t

/-! ### The ALU function -/

/-- R203: the range of the intermediate of each operation, each end attained, and no carry from the
logic operations (NOT in its default width). -/
def Obligations.IntermediateRanges : Prop :=
  ∀ cfg : Config, cfg.notWidth = .w8 →
    let spans (o : AluOp) (lo hi : Int) : Prop :=
      (∀ a t cy, lo ≤ intermediate cfg o a t cy ∧ intermediate cfg o a t cy ≤ hi) ∧
      (∃ a t cy, intermediate cfg o a t cy = lo) ∧ (∃ a t cy, intermediate cfg o a t cy = hi)
    spans .add 0 510 ∧ spans .adc 0 511 ∧ spans .sub (-255) 255 ∧ spans .sbb (-256) 255 ∧
    spans .and 0 255 ∧ spans .or 0 255 ∧ spans .xor 0 255 ∧ spans .not 0 255 ∧
    ∀ o ∈ [AluOp.and, AluOp.or, AluOp.xor, AluOp.not], ∀ a t cy, (alu cfg o a t cy).2.cy = false

/-- R204: Z is the zero-ness of the intermediate: the 8-bit result is zero and there is no carry; and
the cases in which it is set, operation by operation (NOT of A in its default width). -/
def Obligations.ZeroFlagIsOfTheIntermediate : Prop :=
  ∀ (cfg : Config) (a t : Byte) (cy : Bool), cfg.notWidth = .w8 → cfg.notOperand = .acc →
    (∀ o, (alu cfg o a t cy).2.z = ((alu cfg o a t cy).1 == 0 && !(alu cfg o a t cy).2.cy)) ∧
    ((alu cfg .add a t cy).2.z = true ↔ a = 0 ∧ t = 0) ∧
    ((alu cfg .adc a t cy).2.z = true ↔ a = 0 ∧ t = 0 ∧ cy = false) ∧
    ((alu cfg .sub a t cy).2.z = true ↔ a = t) ∧
    ((alu cfg .sbb a t cy).2.z = true ↔ a.toNat = t.toNat + cy.toNat) ∧
    ((alu cfg .and a t cy).2.z = true ↔ a &&& t = 0) ∧
    ((alu cfg .or a t cy).2.z = true ↔ a ||| t = 0) ∧
    ((alu cfg .xor a t cy).2.z = true ↔ a = t) ∧
    ((alu cfg .not a t cy).2.z = true ↔ a = 0xFF)

/-- R205: P is the evenness of the intermediate, which is bit 0 of the result being clear. -/
def Obligations.ParityIsEvenness : Prop :=
  ∀ (cfg : Config) (o : AluOp) (a t : Byte) (cy : Bool),
    (alu cfg o a t cy).2.p = decide (intermediate cfg o a t cy % 2 = 0) ∧
    (alu cfg o a t cy).2.p = !(alu cfg o a t cy).1.getLsbD 0

/-- R206: S is bit 7 of the result; under `SIGN_MODE = never` it is never set, and no step sets it. -/
def Obligations.SignFlagByMode : Prop :=
  (∀ (cfg : Config) (o : AluOp) (a t : Byte) (cy : Bool),
    (cfg.signMode = .bit7 → (alu cfg o a t cy).2.s = (alu cfg o a t cy).1.getLsbD 7) ∧
    (cfg.signMode = .never → (alu cfg o a t cy).2.s = false)) ∧
  ∀ s t : State, s.cfg.signMode = .never → s.flags.s = false → step s = .next t → t.flags.s = false

/-! ### Memory -/

/-- R52 to R55: a write in range changes one cell, and a read gives the byte last written; an access to
either memory at or above its capacity raises the range fault and changes no cell. -/
def Obligations.MemoryAccess : Prop :=
  ∀ (s : State) (a : Addr) (v : Byte),
    (a.toNat < s.rom.capacity → s.romRead a = .ok (s.rom.byteAt a)) ∧
    (s.rom.capacity ≤ a.toNat →
      ∃ t, s.romRead a = .error t ∧ FaultedFrom (.memRange .rom .read a) s t) ∧
    (a.toNat < s.ram.capacity →
      s.ramRead a = .ok (s.ram.byteAt a) ∧
      ∃ t, s.ramWrite a v = .ok t ∧ OnlyWrites { ram := some a } s t ∧ t.pc = s.pc ∧
        ∀ b : Addr, b.toNat < s.ram.capacity →
          t.ramRead b = .ok (if b = a then v else s.ram.byteAt b)) ∧
    (s.ram.capacity ≤ a.toNat →
      (∃ t, s.ramRead a = .error t ∧ FaultedFrom (.memRange .ram .read a) s t) ∧
      ∃ t, s.ramWrite a v = .error t ∧ FaultedFrom (.memRange .ram .write a) s t)

/-- R62: the requests of a step say all that it does to data memory, it makes at most two, and at most
one on the data port. (The list of requests is the model's view of the ports, log entry 16.) -/
def Obligations.PortRequestsExplainMemory : Prop :=
  ∀ s t : State, step s = .next t →
    (∀ a, (∀ v, .dataWrite a v ∉ portRequests s) → t.ram.byteAt a = s.ram.byteAt a) ∧
    (∀ a v, .dataWrite a v ∈ portRequests s → a.toNat < s.ram.capacity → t.ram.byteAt a = v) ∧
    (portRequests s).length ≤ 2 ∧
    ((portRequests s).filter (fun q => match q with
      | .programRead _ => false
      | .dataRead _ => true
      | .dataWrite _ _ => true)).length ≤ 1

/-- R57, R242: a step of a Running core records a memory range fault exactly when one of its requests is
out of range. -/
def Obligations.RangeFaultIffRequestOutOfRange : Prop :=
  ∀ s t : State, s.Inv → s.run = .running → step s = .next t →
    ((∃ m k a, t.fault = some (.memRange m k a)) ↔ ∃ q ∈ portRequests s, q.inRange s = false)

/-! ### Faults -/

/-- R129, R242: a fetch at or above the capacity of program memory faults and changes nothing else. -/
def Obligations.OpcodeFetchRangeFault : Prop :=
  ∀ s : State, s.run = .running → s.rom.capacity ≤ s.pc.toNat →
    ∃ t, step s = .next t ∧ FaultedFrom (.memRange .rom .read s.pc) s t

/-- R95, R243, R129: under the default parameters an illegal opcode raises the decode fault after PC has
been incremented, and no other opcode raises one, whatever the byte after it. -/
def Obligations.IllegalOpcodeFault : Prop :=
  ∀ s : State, s.run = .running → s.cfg = Config.specDefault → s.pc.toNat < s.rom.capacity →
    (s.rom.byteAt s.pc ∈ illegalOpcodes →
      ∃ t, step s = .next t ∧ FaultedFrom (.decode (s.rom.byteAt s.pc)) (s.setPc (s.pc + 1)) t) ∧
    (s.rom.byteAt s.pc ∉ illegalOpcodes → s.fault = none →
      ∃ t, step s = .next t ∧ ∀ op, t.fault ≠ some (.decode op))

/-- R140, R129: an LDI whose immediate is out of range faults with PC on the unreadable byte and the
register unchanged, under the default parameters. -/
def Obligations.ImmediateFetchRangeFault : Prop :=
  ∀ s : State, s.run = .running → s.cfg = Config.specDefault → s.pc.toNat < s.rom.capacity →
    s.rom.byteAt s.pc ≤ 0x06 → s.rom.capacity ≤ (s.pc + 1).toNat →
    ∃ t, step s = .next t ∧
      FaultedFrom (.memRange .rom .read (s.pc + 1)) (s.setPc (s.pc + 1)) t

/-- R129, R242: STM, LDM, PUSH and POP out of range: nothing is stored or loaded, PUSH has not
decremented SP, POP has incremented it. -/
def Obligations.DataRangeFaults : Prop :=
  ∀ (r : Reg) (s : State),
    (s.ram.capacity ≤ s.hl.toNat →
      (∃ t, exec (.stm r) s = .next t ∧ FaultedFrom (.memRange .ram .write s.hl) s t) ∧
      (∃ t, exec (.ldm r) s = .next t ∧ FaultedFrom (.memRange .ram .read s.hl) s t)) ∧
    (s.ram.capacity ≤ s.sp.toNat →
      ∃ t, exec (.push r) s = .next t ∧ FaultedFrom (.memRange .ram .write s.sp) s t) ∧
    (mayMove16 s s.sp 0xFFFF#16 → s.ram.capacity ≤ (s.sp + 1).toNat →
      ∃ t, exec (.pop r) s = .next t ∧
        FaultedFrom (.memRange .ram .read (s.sp + 1)) (s.setSp (s.sp + 1)) t)

/-- R27, R244: under `WRAP16 = fault` an increment of 0xFFFF and a decrement of 0x0000 raise the overflow
fault and leave the register; a PUSH has stored its byte by then. -/
def Obligations.OverflowFaults : Prop :=
  ∀ (r : Reg) (n : Byte) (s : State), s.cfg.wrap16 = .fault →
    (s.run = .running → s.pc = 0xFFFF#16 → s.pc.toNat < s.rom.capacity →
      ∃ t, step s = .next t ∧ FaultedFrom (.internal .overflow16) s t) ∧
    (s.pc = 0xFFFF#16 →
      ∃ t, exec (.ldi r n) s = .next t ∧ FaultedFrom (.internal .overflow16) s t) ∧
    (s.sp = 0xFFFF#16 →
      ∃ t, exec (.pop r) s = .next t ∧ FaultedFrom (.internal .overflow16) s t) ∧
    (s.sp = 0x0000#16 → s.sp.toNat < s.ram.capacity →
      ∃ u t, s.ramWrite s.sp (s.reg r) = .ok u ∧ exec (.push r) s = .next t ∧
        FaultedFrom (.internal .overflow16) u t)

/-- Which meaning can fault, and exactly when (with 16-bit arithmetic that wraps): R245's data accesses. LDI
is absent by the model's choice, log entry 6: R245, R242 and R129 put the fault of LDI's immediate after
Fetch, in its Operand phase, while the model reads the immediate in `State.fetch`, before `exec`; that fault
is `Obligations.ImmediateFetchRangeFault`. -/
def Obligations.InstructionsThatCanFault : Prop :=
  ∀ (i : Instr) (s t : State), s.run = .running → s.cfg.wrap16 = .wrap → exec i s = .next t →
    (t.run = .faulted ↔
      (∃ r, i = .stm r ∧ s.ram.capacity ≤ s.hl.toNat) ∨
      (∃ r, i = .ldm r ∧ s.ram.capacity ≤ s.hl.toNat) ∨
      (∃ r, i = .push r ∧ s.ram.capacity ≤ s.sp.toNat) ∨
      (∃ r, i = .pop r ∧ s.ram.capacity ≤ (s.sp + 1).toNat))

/-- R247, R129: a faulting step (with 16-bit arithmetic that wraps) has changed no register, flag, T or
byte of memory; PC has advanced by 0 or 1 and SP by 0 or 1, and the fault is recorded. -/
def Obligations.FaultsArePrecise : Prop :=
  ∀ s t : State, s.run = .running → s.cfg.wrap16 = .wrap → step s = .next t → t.run = .faulted →
    t.regs = s.regs ∧ t.flags = s.flags ∧ t.t = s.t ∧ t.rom = s.rom ∧ t.ram = s.ram ∧
    (t.pc = s.pc ∨ t.pc = s.pc + 1) ∧ (t.sp = s.sp ∨ t.sp = s.sp + 1) ∧ t.fault ≠ none

/-- R246: fault entry records the fault, makes the core Faulted and changes nothing else that the spec
defines; from then on the core performs no step. -/
def Obligations.FaultEntry : Prop :=
  ∀ (s : State) (f : FaultRecord), FaultedFrom f s (s.raise f) ∧
    ∀ n, Sys2Proof.core.run n (s.raise f) = .next (s.raise f)

/-- R249, R273, R272: from every state, reset makes the core Running and clears the fault record, and so the
next step request is taken and not ignored: it fetches at address 0. With a HLT there, that step halts. -/
def Obligations.ResetLeavesStoppedStates : Prop :=
  ∀ s : State, s.applyReset.run = .running ∧ s.applyReset.fault = none ∧ s.applyReset.pc = 0 ∧
    step s.applyReset = stepRunning s.applyReset ∧
    (0 < s.rom.capacity → s.rom.byteAt 0 = 0xFF →
      ∃ t, step s.applyReset = .next t ∧ t.run = .halted ∧ t.pc = 1)

/-- R58, R36, R280: an image that fits stands in program memory from address 0 with zeros after it, and
nothing else changes; one that is longer than the capacity is a fatal load error. (The zero fill is log entry
9, the loader log entry 13.) A host's write to either memory, in any run state, puts its bytes from its address
on and changes nothing else, and every host read in range shows it; one past the capacity is refused. (The host's
write is log entry 19; that no run holds one is log entry 11.) R275: the order of sizing the memories and of
loading the program or writing a memory is free: what fits both the old and the new size gives the same
machine either way. (What sizing keeps and refuses is log entry 19.) -/
def Obligations.LoadProgramPlacesImage : Prop :=
  ∀ s : State,
    (∀ image : List Byte, s.rom.capacity ≤ 65536 →
      (image.length ≤ s.rom.capacity →
        ∃ t, s.loadProgram image = .next t ∧ t.rom.capacity = s.rom.capacity ∧
          (∀ a : Addr, t.rom.byteAt a = image.getD a.toNat 0) ∧ t.ram = s.ram ∧
          t.snapshot = s.snapshot ∧ t.op = s.op ∧ t.cfg = s.cfg ∧ t.freeCount = s.freeCount) ∧
      (s.rom.capacity < image.length →
        s.loadProgram image = .fault (.imageTooLong image.length s.rom.capacity))) ∧
    (∀ (mem : MemKind) (a : Nat) (bytes : List Byte),
      (a + bytes.length ≤ (s.memory mem).capacity →
        ∃ t, s.hostWrite mem a bytes = .next t ∧
          (t.memory mem).capacity = (s.memory mem).capacity ∧
          (∀ b : Addr, (t.memory mem).byteAt b =
            if a ≤ b.toNat ∧ b.toNat < a + bytes.length then bytes.getD (b.toNat - a) 0
            else (s.memory mem).byteAt b) ∧
          (∀ b : Addr, b.toNat < (s.memory mem).capacity →
            t.hostRead mem b = .ok ((t.memory mem).byteAt b)) ∧
          (∀ k, k ≠ mem → t.memory k = s.memory k) ∧
          t.snapshot = s.snapshot ∧ t.op = s.op ∧ t.cfg = s.cfg ∧ t.freeCount = s.freeCount) ∧
      ((s.memory mem).capacity < a + bytes.length →
        s.hostWrite mem a bytes =
          .fault (.hostWriteOutOfRange mem a bytes.length (s.memory mem).capacity))) ∧
    ∀ (romSize ramSize : Nat) (sized : State), s.sizeMemories romSize ramSize = .next sized →
      sized.rom.capacity = romSize ∧ sized.ram.capacity = ramSize ∧
      (∀ mem a, (sized.memory mem).byteAt a = (s.memory mem).byteAt a) ∧
      (∀ image : List Byte, image.length ≤ s.rom.capacity → image.length ≤ romSize →
        ∃ t u, s.loadProgram image = .next t ∧ t.sizeMemories romSize ramSize = .next u ∧
          sized.loadProgram image = .next u) ∧
      ∀ (mem : MemKind) (a : Nat) (bytes : List Byte),
        a + bytes.length ≤ (s.memory mem).capacity →
        a + bytes.length ≤ (sized.memory mem).capacity →
        ∃ t u, s.hostWrite mem a bytes = .next t ∧ t.sizeMemories romSize ramSize = .next u ∧
          sized.hostWrite mem a bytes = .next u

/-! ### Rules about the whole machine -/

/-- R26, R179: after a step that does not fault PC is one past its old value, two past it, or the
composite pointer of before the step. -/
def Obligations.ProgramCounterMoves : Prop :=
  ∀ s t : State, s.run = .running → step s = .next t → t.run ≠ .faulted →
    t.pc = s.pc + 1 ∨ t.pc = s.pc + 2 ∨ t.pc = s.hl
end

