-- ==== Sys2Proof/Laws/Decode.lean ====
section
/-! SUPPORT. Selectors and their codes are inverse to each other under well-formed parameters, and the
fields and the row of each encoding. -/

namespace Sys2Proof

theorem Reg.mem_all (r : Reg) : r ∈ Reg.all := by cases r <;> decide

theorem Flag.mem_all (f : Flag) : f ∈ Flag.all := by cases f <;> decide

theorem AluOp.mem_all (o : AluOp) : o ∈ AluOp.all := by cases o <;> decide

/-- The default parameters are within their types. -/
theorem Config.specDefault_wellFormed : Config.specDefault.wellFormed = true := by decide

theorem DecodeConfig.wellFormed_iff (c : DecodeConfig) :
    c.wellFormed = true ↔
      c.regCode.Perm Reg.all ∧ c.flagCode.Perm Flag.all ∧ c.aluOpCode.Perm AluOp.all := by
  simp [DecodeConfig.wellFormed, DecodeConfig.regCodeOk, DecodeConfig.flagCodeOk,
    DecodeConfig.opCodeOk, List.isPerm_iff, and_assoc]

/-! ### Positions in a list without repeats -/

theorem idxOf_lt_of_perm {α : Type} [DecidableEq α] {l all : List α} (h : l.Perm all) (x : α)
    (hx : x ∈ all) : l.idxOf x < all.length := by
  rw [← h.length_eq]; exact List.idxOf_lt_length_of_mem (h.mem_iff.mpr hx)

theorem getElem_idxOf_of_perm {α : Type} [DecidableEq α] {l all : List α} (h : l.Perm all) (x : α)
    (hx : x ∈ all) : l[l.idxOf x]? = some x :=
  List.getElem?_idxOf (h.mem_iff.mpr hx)

theorem idxOf_of_getElem {α : Type} [DecidableEq α] {l all : List α} (h : l.Perm all)
    (hall : all.Nodup) (k : Nat) (x : α) (hk : l[k]? = some x) : l.idxOf x = k := by
  obtain ⟨hlt, hx⟩ := List.getElem?_eq_some_iff.mp hk
  subst hx
  exact (h.nodup_iff.mpr hall).idxOf_getElem k hlt

/-! ### Registers -/

theorem DecodeConfig.regSel_toNat (c : DecodeConfig) (h : c.wellFormed = true) (r : Reg) :
    (c.regSel r).toNat = c.regCode.idxOf r := by
  have hlt := idxOf_lt_of_perm (c.wellFormed_iff.mp h).1 r (Reg.mem_all r)
  simp only [Reg.all, List.length_cons, List.length_nil] at hlt
  rw [DecodeConfig.regSel, BitVec.toNat_ofNat]
  omega

/-- No register has code 7 (R22). -/
theorem DecodeConfig.regSel_ne_seven (c : DecodeConfig) (h : c.wellFormed = true) (r : Reg) :
    c.regSel r ≠ 7#3 := by
  intro e
  have hlt := idxOf_lt_of_perm (c.wellFormed_iff.mp h).1 r (Reg.mem_all r)
  have := c.regSel_toNat h r
  rw [e] at this
  simp [Reg.all] at hlt this
  omega

theorem DecodeConfig.regOf_regSel (c : DecodeConfig) (h : c.wellFormed = true) (r : Reg) :
    c.regOf (c.regSel r) = some r := by
  rw [DecodeConfig.regOf, c.regSel_toNat h r]
  exact getElem_idxOf_of_perm (c.wellFormed_iff.mp h).1 r (Reg.mem_all r)

theorem DecodeConfig.regSel_of_regOf (c : DecodeConfig) (h : c.wellFormed = true) (k : Sel3) (r : Reg)
    (hk : c.regOf k = some r) : c.regSel r = k := by
  apply BitVec.eq_of_toNat_eq
  rw [c.regSel_toNat h r]
  exact idxOf_of_getElem (c.wellFormed_iff.mp h).1 (by decide) k.toNat r hk

/-- Code 7 selects no register (R22, R83). -/
theorem DecodeConfig.regOf_seven (c : DecodeConfig) (h : c.wellFormed = true) :
    c.regOf 7#3 = none := by
  have hl := (c.wellFormed_iff.mp h).1.length_eq
  rw [DecodeConfig.regOf, List.getElem?_eq_none_iff, hl]
  decide

/-- Every other code selects a register (R22). -/
theorem DecodeConfig.regOf_isSome (c : DecodeConfig) (h : c.wellFormed = true) (k : Sel3)
    (hk : k ≠ 7#3) : (c.regOf k).isSome = true := by
  have hl := (c.wellFormed_iff.mp h).1.length_eq
  have h7 : k.toNat < 7 := by
    have := k.isLt
    have hne : k.toNat ≠ 7 := fun e => hk (BitVec.eq_of_toNat_eq (by simpa using e))
    omega
  rw [DecodeConfig.regOf, List.getElem?_eq_getElem (by rw [hl]; exact h7)]
  rfl

/-! ### Flags -/

theorem DecodeConfig.flagSel_toNat (c : DecodeConfig) (h : c.wellFormed = true) (f : Flag) :
    (c.flagSel f).toNat = c.flagCode.idxOf f := by
  have hlt := idxOf_lt_of_perm (c.wellFormed_iff.mp h).2.1 f (Flag.mem_all f)
  simp only [Flag.all, List.length_cons, List.length_nil] at hlt
  rw [DecodeConfig.flagSel, BitVec.toNat_ofNat]
  omega

theorem DecodeConfig.flagOf_flagSel (c : DecodeConfig) (h : c.wellFormed = true) (f : Flag) :
    c.flagOf (c.flagSel f) = some f := by
  rw [DecodeConfig.flagOf, c.flagSel_toNat h f]
  exact getElem_idxOf_of_perm (c.wellFormed_iff.mp h).2.1 f (Flag.mem_all f)

theorem DecodeConfig.flagSel_of_flagOf (c : DecodeConfig) (h : c.wellFormed = true) (k : Sel2)
    (f : Flag) (hk : c.flagOf k = some f) : c.flagSel f = k := by
  apply BitVec.eq_of_toNat_eq
  rw [c.flagSel_toNat h f]
  exact idxOf_of_getElem (c.wellFormed_iff.mp h).2.1 (by decide) k.toNat f hk

/-- Every 2-bit code selects a flag (R30, R84). -/
theorem DecodeConfig.flagOf_isSome (c : DecodeConfig) (h : c.wellFormed = true) (k : Sel2) :
    (c.flagOf k).isSome = true := by
  have hl := (c.wellFormed_iff.mp h).2.1.length_eq
  rw [DecodeConfig.flagOf, List.getElem?_eq_getElem (by rw [hl]; exact k.isLt)]
  rfl

/-! ### Operations -/

theorem DecodeConfig.opSel_toNat (c : DecodeConfig) (h : c.wellFormed = true) (o : AluOp) :
    (c.opSel o).toNat = c.aluOpCode.idxOf o := by
  have hlt := idxOf_lt_of_perm (c.wellFormed_iff.mp h).2.2 o (AluOp.mem_all o)
  simp only [AluOp.all, List.length_cons, List.length_nil] at hlt
  rw [DecodeConfig.opSel, BitVec.toNat_ofNat]
  omega

theorem DecodeConfig.opOf_opSel (c : DecodeConfig) (h : c.wellFormed = true) (o : AluOp) :
    c.opOf (c.opSel o) = some o := by
  rw [DecodeConfig.opOf, c.opSel_toNat h o]
  exact getElem_idxOf_of_perm (c.wellFormed_iff.mp h).2.2 o (AluOp.mem_all o)

theorem DecodeConfig.opSel_of_opOf (c : DecodeConfig) (h : c.wellFormed = true) (k : Sel3) (o : AluOp)
    (hk : c.opOf k = some o) : c.opSel o = k := by
  apply BitVec.eq_of_toNat_eq
  rw [c.opSel_toNat h o]
  exact idxOf_of_getElem (c.wellFormed_iff.mp h).2.2 (by decide) k.toNat o hk

/-- Every 3-bit code selects an operation (R85). -/
theorem DecodeConfig.opOf_isSome (c : DecodeConfig) (h : c.wellFormed = true) (k : Sel3) :
    (c.opOf k).isSome = true := by
  have hl := (c.wellFormed_iff.mp h).2.2.length_eq
  rw [DecodeConfig.opOf, List.getElem?_eq_getElem (by rw [hl]; exact k.isLt)]
  rfl

/-! ### The fields and the row of an opcode put together from its fields -/

@[simp] theorem quadrant_append (q : Sel2) (s d : Sel3) : quadrant (q ++ s ++ d) = q := by
  revert q s d; decide

@[simp] theorem srcField_append (q : Sel2) (s d : Sel3) : srcField (q ++ s ++ d) = s := by
  revert q s d; decide

@[simp] theorem ctlField_append (q : Sel2) (s d : Sel3) : ctlField (q ++ s ++ d) = d := by
  revert q s d; decide

/-- An opcode is its three fields. -/
theorem append_fields (op : Byte) : quadrant op ++ srcField op ++ ctlField op = op := by
  revert op; decide

@[simp] theorem ctlField_append_low (p : BitVec 5) (d : Sel3) : ctlField (p ++ d) = d := by
  revert p d; decide

@[simp] theorem fselField_append (q f : Sel2) (p : BitVec 4) : fselField (q ++ f ++ p) = f := by
  revert q f p; decide

theorem rowOf_ldi (d : Sel3) (hd : d ≠ 7#3) : rowOf (0b00000#5 ++ d) = .ldi := by
  revert d; decide

theorem rowOf_push (s : Sel3) (hs : s ≠ 7#3) : rowOf (0b00#2 ++ s ++ 0b111#3) = .push := by
  revert s; decide

theorem rowOf_pop (d : Sel3) (hd : d ≠ 7#3) : rowOf (0b00111#5 ++ d) = .pop := by
  revert d; decide

theorem rowOf_mov (s d : Sel3) (hs : s ≠ 7#3) (hd : d ≠ 7#3) :
    rowOf (0b01#2 ++ s ++ d) = .mov := by
  revert s d; decide

theorem rowOf_stm (s : Sel3) (hs : s ≠ 7#3) : rowOf (0b01#2 ++ s ++ 0b111#3) = .stm := by
  revert s; decide

theorem rowOf_ldm (d : Sel3) (hd : d ≠ 7#3) : rowOf (0b01111#5 ++ d) = .ldm := by
  revert d; decide

theorem rowOf_jfs (f : Sel2) : rowOf (0b11#2 ++ f ++ 0b1100#4) = .jfs := by
  revert f; decide

theorem rowOf_jfr (f : Sel2) : rowOf (0b11#2 ++ f ++ 0b0100#4) = .jfr := by
  revert f; decide

theorem rowOf_aluAcc (s d : Sel3) : rowOf (0b10#2 ++ s ++ d) = .aluAcc := by
  revert s d; decide

theorem rowOf_aluFlag (s d : Sel3) (hd : d ≠ 4#3) (h : ¬ (s = 7#3 ∧ d = 7#3)) :
    rowOf (0b11#2 ++ s ++ d) = .aluFlag := by
  revert s d; decide

/-! ### Selecting a field -/

theorem selectReg_of_some {c : DecodeConfig} {k : Sel3} {r : Reg} (op : Byte)
    (h : c.regOf k = some r) : selectReg c op k = .ok r := by
  rw [selectReg, h]

theorem selectReg_of_none {c : DecodeConfig} {k : Sel3} (op : Byte) (h : c.regOf k = none) :
    selectReg c op k = .error (.badRegister op) := by
  rw [selectReg, h]

theorem regOf_of_selectReg {c : DecodeConfig} {op : Byte} {k : Sel3} {r : Reg}
    (h : selectReg c op k = .ok r) : c.regOf k = some r := by
  unfold selectReg at h; split at h <;> simp_all

theorem selectFlag_of_some {c : DecodeConfig} {k : Sel2} {f : Flag} (op : Byte)
    (h : c.flagOf k = some f) : selectFlag c op k = .ok f := by
  rw [selectFlag, h]

theorem flagOf_of_selectFlag {c : DecodeConfig} {op : Byte} {k : Sel2} {f : Flag}
    (h : selectFlag c op k = .ok f) : c.flagOf k = some f := by
  unfold selectFlag at h; split at h <;> simp_all

theorem selectOp_of_some {c : DecodeConfig} {k : Sel3} {o : AluOp} (op : Byte)
    (h : c.opOf k = some o) : selectOp c op k = .ok o := by
  rw [selectOp, h]

theorem opOf_of_selectOp {c : DecodeConfig} {op : Byte} {k : Sel3} {o : AluOp}
    (h : selectOp c op k = .ok o) : c.opOf k = some o := by
  unfold selectOp at h; split at h <;> simp_all

/-- The fields of an arithmetic/logic opcode that was put together from an operation and a register. -/
theorem aluFields_aluByte (c : DecodeConfig) (h : c.wellFormed = true) (q : Sel2) (o : AluOp)
    (r : Reg) : aluFields c (aluByte c q o r) = .ok (o, r) := by
  have ho := c.opOf_opSel h o
  have hr := c.regOf_regSel h r
  unfold aluFields aluByte DecodeConfig.aluSrc DecodeConfig.aluCtl
  cases c.aluLayout <;>
    simp [selectOp_of_some _ ho, selectReg_of_some _ hr, bind, Except.bind, pure, Except.pure]

/-- An arithmetic/logic opcode is put together from its operation and register. -/
theorem aluByte_of_aluFields (c : DecodeConfig) (h : c.wellFormed = true) (op : Byte) (o : AluOp)
    (r : Reg) (hf : aluFields c op = .ok (o, r)) :
    c.aluSrc o r = srcField op ∧ c.aluCtl o r = ctlField op := by
  have key (x y : Sel3)
      (hxy : (selectOp c op x >>= fun o => selectReg c op y >>= fun r => pure (o, r)) = .ok (o, r)) :
      c.opSel o = x ∧ c.regSel r = y := by
    cases hx : selectOp c op x with
    | error e => rw [hx] at hxy; cases hxy
    | ok o' =>
      cases hy : selectReg c op y with
      | error e => rw [hx, hy] at hxy; cases hxy
      | ok r' =>
        rw [hx, hy] at hxy
        cases hxy
        exact ⟨c.opSel_of_opOf h x o (opOf_of_selectOp hx),
          c.regSel_of_regOf h y r (regOf_of_selectReg hy)⟩
  unfold aluFields at hf
  unfold DecodeConfig.aluSrc DecodeConfig.aluCtl
  cases hl : c.aluLayout <;> rw [hl] at hf
  · exact ⟨(key _ _ hf).2, (key _ _ hf).1⟩
  · exact key _ _ hf

end Sys2Proof
end

