-- ==== Sys2Proof/Laws/Memory.lean ====
section
/-! SUPPORT. The laws of a memory's contents: reading after writing, the canonical form, and that the
canonical form is unique. -/

namespace Sys2Proof.Machine

theorem Memory.read_below (cap lo : Nat) (m : Memory) (h : Memory.wfFrom cap lo m = true) (a : Nat)
    (ha : a < lo) : Memory.read m a = Memory.fill := by
  induction m generalizing lo with
  | nil => rfl
  | cons e rest ih =>
    obtain ⟨k, v⟩ := e
    simp only [Memory.wfFrom, Bool.and_eq_true, decide_eq_true_eq] at h
    obtain ⟨⟨⟨hlo, -⟩, -⟩, hrest⟩ := h
    rw [Memory.read, if_neg (by omega)]
    exact ih (k + 1) hrest (by omega)

theorem Memory.wfFrom_mono (cap lo lo' : Nat) (m : Memory) (hle : lo' ≤ lo)
    (h : Memory.wfFrom cap lo m = true) : Memory.wfFrom cap lo' m = true := by
  cases m with
  | nil => rfl
  | cons e rest =>
    obtain ⟨k, v⟩ := e
    simp only [Memory.wfFrom, Bool.and_eq_true, decide_eq_true_eq] at h ⊢
    exact ⟨⟨⟨by omega, h.1.1.2⟩, h.1.2⟩, h.2⟩

/-- A larger capacity keeps the canonical form. -/
theorem Memory.wfFrom_capacity (cap cap' lo : Nat) (m : Memory) (hle : cap ≤ cap')
    (h : Memory.wfFrom cap lo m = true) : Memory.wfFrom cap' lo m = true := by
  induction m generalizing lo with
  | nil => rfl
  | cons e rest ih =>
    obtain ⟨k, v⟩ := e
    simp only [Memory.wfFrom, Bool.and_eq_true, decide_eq_true_eq] at h ⊢
    exact ⟨⟨⟨h.1.1.1, by omega⟩, h.1.2⟩, ih _ h.2⟩

/-! ### Reading -/

theorem Memory.read_erase (m : Memory) (a b : Nat) :
    Memory.read (Memory.erase m a) b = if a = b then Memory.fill else Memory.read m b := by
  induction m with
  | nil => simp [Memory.erase, Memory.read]
  | cons e rest ih =>
    obtain ⟨k, w⟩ := e
    by_cases hka : k = a
    · subst hka
      rw [Memory.erase, if_pos rfl, ih]
      by_cases hkb : k = b
      · rw [if_pos hkb, if_pos hkb]
      · rw [if_neg hkb, if_neg hkb, Memory.read, if_neg hkb]
    · rw [Memory.erase, if_neg hka, Memory.read, Memory.read, ih]
      by_cases hkb : k = b
      · subst hkb; rw [if_pos rfl, if_neg (fun h => hka h.symm), if_pos rfl]
      · rw [if_neg hkb, if_neg hkb]

theorem Memory.read_insert (m : Memory) (a b : Nat) (v : Byte) :
    Memory.read (Memory.insert m a v) b = if a = b then v else Memory.read m b := by
  induction m with
  | nil => simp [Memory.insert, Memory.read]
  | cons e rest ih =>
    obtain ⟨k, w⟩ := e
    by_cases hak : a ≤ k
    · rw [Memory.insert, if_pos hak, Memory.read]
    · rw [Memory.insert, if_neg hak, Memory.read, Memory.read, ih]
      by_cases hkb : k = b
      · subst hkb; rw [if_pos rfl, if_neg (by omega), if_pos rfl]
      · rw [if_neg hkb, if_neg hkb]

/-- Reading after a write. -/
theorem Memory.read_write (m : Memory) (a b : Nat) (v : Byte) :
    Memory.read (Memory.write m a v) b = if a = b then v else Memory.read m b := by
  by_cases hv : v = Memory.fill
  · rw [Memory.write, if_pos hv, Memory.read_erase, hv]
  · rw [Memory.write, if_neg hv, Memory.read_insert, Memory.read_erase]
    by_cases hab : a = b
    · rw [if_pos hab, if_pos hab]
    · rw [if_neg hab, if_neg hab, if_neg hab]

/-! ### The canonical form -/

theorem Memory.erase_wfFrom (cap lo : Nat) (m : Memory) (a : Nat)
    (h : Memory.wfFrom cap lo m = true) : Memory.wfFrom cap lo (Memory.erase m a) = true := by
  induction m generalizing lo with
  | nil => rfl
  | cons e rest ih =>
    obtain ⟨k, w⟩ := e
    simp only [Memory.wfFrom, Bool.and_eq_true, decide_eq_true_eq] at h
    by_cases hka : k = a
    · rw [Memory.erase, if_pos hka]
      exact Memory.wfFrom_mono cap (k + 1) lo _ (by omega) (ih (k + 1) h.2)
    · rw [Memory.erase, if_neg hka]
      simp only [Memory.wfFrom, Bool.and_eq_true, decide_eq_true_eq]
      exact ⟨h.1, ih (k + 1) h.2⟩

theorem Memory.erase_keys (m : Memory) (a : Nat) : ∀ e ∈ Memory.erase m a, e.1 ≠ a := by
  induction m with
  | nil => simp [Memory.erase]
  | cons e rest ih =>
    obtain ⟨k, w⟩ := e
    by_cases hka : k = a
    · rw [Memory.erase, if_pos hka]; exact ih
    · rw [Memory.erase, if_neg hka]
      intro e he
      rcases List.mem_cons.mp he with rfl | he
      · exact hka
      · exact ih e he

theorem Memory.insert_wfFrom (cap lo : Nat) (m : Memory) (a : Nat) (v : Byte)
    (h : Memory.wfFrom cap lo m = true) (hkeys : ∀ e ∈ m, e.1 ≠ a) (hlo : lo ≤ a) (hcap : a < cap)
    (hv : v ≠ Memory.fill) : Memory.wfFrom cap lo (Memory.insert m a v) = true := by
  induction m generalizing lo with
  | nil => simp [Memory.insert, Memory.wfFrom, hv, hlo, hcap]
  | cons e rest ih =>
    obtain ⟨k, w⟩ := e
    have hne : k ≠ a := hkeys (k, w) (List.mem_cons_self ..)
    simp only [Memory.wfFrom, Bool.and_eq_true, decide_eq_true_eq] at h
    by_cases hak : a ≤ k
    · rw [Memory.insert, if_pos hak]
      simp only [Memory.wfFrom, Bool.and_eq_true, decide_eq_true_eq]
      exact ⟨⟨⟨hlo, hcap⟩, hv⟩, ⟨⟨by omega, h.1.1.2⟩, h.1.2⟩, h.2⟩
    · rw [Memory.insert, if_neg hak]
      simp only [Memory.wfFrom, Bool.and_eq_true, decide_eq_true_eq]
      exact ⟨h.1, ih (k + 1) h.2 (fun e he => hkeys e (List.mem_cons_of_mem _ he)) (by omega)⟩

/-- A write in range keeps the canonical form. -/
theorem Memory.write_wf (cap : Nat) (m : Memory) (a : Nat) (v : Byte) (h : Memory.wf cap m = true)
    (hcap : a < cap) : Memory.wf cap (Memory.write m a v) = true := by
  by_cases hv : v = Memory.fill
  · rw [Memory.write, if_pos hv]; exact Memory.erase_wfFrom cap 0 m a h
  · rw [Memory.write, if_neg hv]
    exact Memory.insert_wfFrom cap 0 _ a v (Memory.erase_wfFrom cap 0 m a h)
      (Memory.erase_keys m a) (Nat.zero_le a) hcap hv

theorem Memory.read_head (cap lo : Nat) (k : Nat) (v : Byte) (rest : Memory)
    (h : Memory.wfFrom cap lo ((k, v) :: rest) = true) :
    lo ≤ k ∧ Memory.read ((k, v) :: rest) k ≠ Memory.fill := by
  simp only [Memory.wfFrom, Bool.and_eq_true, decide_eq_true_eq] at h
  exact ⟨h.1.1.1, by simp [Memory.read, h.1.2]⟩

/-- Two contents in canonical form that read alike are equal. -/
theorem Memory.wfFrom_ext (cap cap' lo : Nat) (m n : Memory) (hm : Memory.wfFrom cap lo m = true)
    (hn : Memory.wfFrom cap' lo n = true) (h : ∀ a, Memory.read m a = Memory.read n a) : m = n := by
  induction m generalizing lo n with
  | nil =>
    cases n with
    | nil => rfl
    | cons e rest =>
      obtain ⟨k, v⟩ := e
      exact absurd (h k).symm (Memory.read_head cap' lo k v rest hn).2
  | cons e rest ih =>
    obtain ⟨k, v⟩ := e
    cases n with
    | nil => exact absurd (h k) (Memory.read_head cap lo k v rest hm).2
    | cons e' rest' =>
      obtain ⟨k', v'⟩ := e'
      have hm' := hm
      have hn' := hn
      simp only [Memory.wfFrom, Bool.and_eq_true, decide_eq_true_eq] at hm' hn'
      have hkk : k = k' := by
        rcases lt_trichotomy k k' with hlt | heq | hgt
        · have h1 := (Memory.read_head cap lo k v rest hm).2
          rw [h k, Memory.read, if_neg (by omega),
            Memory.read_below cap' (k' + 1) rest' hn'.2 k (by omega)] at h1
          exact absurd rfl h1
        · exact heq
        · have h1 := (Memory.read_head cap' lo k' v' rest' hn).2
          rw [← h k', Memory.read, if_neg (by omega),
            Memory.read_below cap (k + 1) rest hm'.2 k' (by omega)] at h1
          exact absurd rfl h1
      subst hkk
      have hv : v = v' := by simpa [Memory.read] using h k
      subst hv
      have hrest : rest = rest' := by
        refine ih (k + 1) rest' hm'.2 hn'.2 (fun a => ?_)
        by_cases hak : k = a
        · subst hak
          rw [Memory.read_below cap (k + 1) rest hm'.2 k (by omega),
            Memory.read_below cap' (k + 1) rest' hn'.2 k (by omega)]
        · simpa [Memory.read, hak] using h a
      rw [hrest]

/-- Copying a byte string in keeps the canonical form. -/
theorem Memory.writeList_wf (cap : Nat) (m : Memory) (a : Nat) (bytes : List Byte)
    (h : Memory.wf cap m = true) (hcap : a + bytes.length ≤ cap) :
    Memory.wf cap (Memory.writeList m a bytes) = true := by
  induction bytes generalizing m a with
  | nil => exact h
  | cons v rest ih =>
    simp only [List.length_cons] at hcap
    exact ih _ _ (Memory.write_wf cap m a v h (by omega)) (by omega)

/-- Reading after a byte string has been copied in: the byte of the string inside it, the old byte
outside. -/
theorem Memory.read_writeList (m : Memory) (a : Nat) (bytes : List Byte) (b : Nat) :
    Memory.read (Memory.writeList m a bytes) b =
      if a ≤ b ∧ b < a + bytes.length then bytes.getD (b - a) 0 else Memory.read m b := by
  induction bytes generalizing m a with
  | nil => rw [if_neg (by simp only [List.length_nil]; omega)]; rfl
  | cons v rest ih =>
    rw [Memory.writeList, ih, Memory.read_write, List.length_cons]
    by_cases h1 : a = b
    · subst h1; simp
    · by_cases h2 : a + 1 ≤ b ∧ b < a + 1 + rest.length
      · obtain ⟨k, rfl⟩ : ∃ k, b = a + 1 + k := ⟨b - (a + 1), by omega⟩
        rw [if_pos h2, if_pos (by omega), show a + 1 + k - (a + 1) = k by omega,
          show a + 1 + k - a = k + 1 by omega]
        rfl
      · rw [if_neg h2, if_neg h1, if_neg (by omega)]

/-- A canonical memory that fits below another capacity is canonical for it. -/
theorem Memory.wfFrom_of_fits (cap cap' lo : Nat) (m : Memory)
    (h : Memory.wfFrom cap lo m = true) (hf : Memory.fits cap' m = true) :
    Memory.wfFrom cap' lo m = true := by
  induction m generalizing lo with
  | nil => rfl
  | cons e rest ih =>
    simp only [Memory.fits, List.all_cons, Bool.and_eq_true, decide_eq_true_eq] at hf
    simp only [Memory.wfFrom, Bool.and_eq_true, decide_eq_true_eq] at h ⊢
    exact ⟨⟨⟨h.1.1.1, hf.1⟩, h.1.2⟩, ih _ h.2 hf.2⟩

theorem Memory.erase_fits (cap : Nat) (m : Memory) (a : Nat) (h : Memory.fits cap m = true) :
    Memory.fits cap (Memory.erase m a) = true := by
  induction m with
  | nil => rfl
  | cons e rest ih =>
    simp only [Memory.fits, List.all_cons, Bool.and_eq_true, decide_eq_true_eq] at h
    rw [Memory.erase]
    split
    · exact ih h.2
    · simp only [Memory.fits, List.all_cons, Bool.and_eq_true, decide_eq_true_eq]
      exact ⟨h.1, ih h.2⟩

theorem Memory.insert_fits (cap : Nat) (m : Memory) (a : Nat) (v : Byte)
    (h : Memory.fits cap m = true) (ha : a < cap) : Memory.fits cap (Memory.insert m a v) = true := by
  induction m with
  | nil => simp [Memory.insert, Memory.fits, ha]
  | cons e rest ih =>
    simp only [Memory.fits, List.all_cons, Bool.and_eq_true, decide_eq_true_eq] at h
    rw [Memory.insert]
    split
    · simp only [Memory.fits, List.all_cons, Bool.and_eq_true, decide_eq_true_eq]
      exact ⟨ha, h.1, h.2⟩
    · simp only [Memory.fits, List.all_cons, Bool.and_eq_true, decide_eq_true_eq]
      exact ⟨h.1, ih h.2⟩

/-- A byte string copied in below a capacity keeps the memory below it. -/
theorem Memory.writeList_fits (cap : Nat) (m : Memory) (a : Nat) (bytes : List Byte)
    (h : Memory.fits cap m = true) (hcap : a + bytes.length ≤ cap) :
    Memory.fits cap (Memory.writeList m a bytes) = true := by
  induction bytes generalizing m a with
  | nil => exact h
  | cons v rest ih =>
    simp only [List.length_cons] at hcap
    refine ih _ _ ?_ (by omega)
    rw [Memory.write]
    split
    · exact Memory.erase_fits cap m a h
    · exact Memory.insert_fits cap _ a v (Memory.erase_fits cap m a h) (by omega)

/-! ### The bus -/

@[simp] theorem MemoryBus.read_of_lt (m : MemoryBus) (a : Addr) (h : a.toNat < m.capacity) :
    m.read a = .ok (m.byteAt a) := by
  rw [MemoryBus.read, if_pos h]

@[simp] theorem MemoryBus.read_of_ge (m : MemoryBus) (a : Addr) (h : m.capacity ≤ a.toNat) :
    m.read a = .outOfRange := by
  rw [MemoryBus.read, if_neg (by omega)]

@[simp] theorem MemoryBus.write_of_lt (m : MemoryBus) (a : Addr) (v : Byte)
    (h : a.toNat < m.capacity) :
    m.write a v = .ok { m with cells := Memory.write m.cells a.toNat v } := by
  rw [MemoryBus.write, if_pos h]

@[simp] theorem MemoryBus.write_of_ge (m : MemoryBus) (a : Addr) (v : Byte)
    (h : m.capacity ≤ a.toNat) : m.write a v = .outOfRange := by
  rw [MemoryBus.write, if_neg (by omega)]

/-- The byte at an address of a memory after a write to it. -/
theorem MemoryBus.byteAt_write (m : MemoryBus) (a b : Addr) (v : Byte) :
    MemoryBus.byteAt { m with cells := Memory.write m.cells a.toNat v } b =
      if b = a then v else m.byteAt b := by
  rw [MemoryBus.byteAt, Memory.read_write, MemoryBus.byteAt]
  by_cases h : b = a
  · subst h; simp
  · rw [if_neg h, if_neg (fun e => h (BitVec.eq_of_toNat_eq e.symm))]

/-- Everything a write can do: in range the same capacity, the byte in its place, every other byte as
before, and the canonical form kept. -/
theorem MemoryBus.write_spec (m n : MemoryBus) (a : Addr) (v : Byte) (h : m.write a v = .ok n) :
    a.toNat < m.capacity ∧ n.capacity = m.capacity ∧
      (∀ b, n.byteAt b = if b = a then v else m.byteAt b) ∧ (m.wf = true → n.wf = true) := by
  by_cases ha : a.toNat < m.capacity
  · rw [MemoryBus.write_of_lt m a v ha] at h
    injection h with h
    subst h
    refine ⟨ha, rfl, fun b => MemoryBus.byteAt_write m a b v, fun hw => ?_⟩
    simp only [MemoryBus.wf, Bool.and_eq_true, decide_eq_true_eq] at hw ⊢
    exact ⟨hw.1, Memory.write_wf _ _ _ _ hw.2 ha⟩
  · rw [MemoryBus.write_of_ge m a v (by omega)] at h
    cases h

end Sys2Proof.Machine
end

