-- ==== Sys2Proof/Laws/Driver.lean ====
section
/-! SUPPORT. What the host's moves on the two memories answer. -/

namespace Sys2Proof.Machine

@[simp] theorem State.memory_rom (s : State) : s.memory .rom = s.rom := rfl

@[simp] theorem State.memory_ram (s : State) : s.memory .ram = s.ram := rfl

@[simp] theorem State.memory_setMemory (s : State) (mem k : MemKind) (m : MemoryBus) :
    (s.setMemory mem m).memory k = if k = mem then m else s.memory k := by
  cases mem <;> cases k <;> rfl

@[simp] theorem State.setMemory_snapshot (s : State) (mem : MemKind) (m : MemoryBus) :
    (s.setMemory mem m).snapshot = s.snapshot := by cases mem <;> rfl

@[simp] theorem State.setMemory_op (s : State) (mem : MemKind) (m : MemoryBus) :
    (s.setMemory mem m).op = s.op := by cases mem <;> rfl

@[simp] theorem State.setMemory_cfg (s : State) (mem : MemKind) (m : MemoryBus) :
    (s.setMemory mem m).cfg = s.cfg := by cases mem <;> rfl

@[simp] theorem State.setMemory_freeCount (s : State) (mem : MemKind) (m : MemoryBus) :
    (s.setMemory mem m).freeCount = s.freeCount := by cases mem <;> rfl

theorem State.hostWrite_of_le (s : State) (mem : MemKind) (a : Nat) (bytes : List Byte)
    (h : a + bytes.length ≤ (s.memory mem).capacity) :
    s.hostWrite mem a bytes = .next (s.setMemory mem
      { s.memory mem with cells := Memory.writeList (s.memory mem).cells a bytes }) := by
  rw [State.hostWrite]; exact if_pos h

theorem State.hostWrite_of_gt (s : State) (mem : MemKind) (a : Nat) (bytes : List Byte)
    (h : (s.memory mem).capacity < a + bytes.length) :
    s.hostWrite mem a bytes =
      .fault (.hostWriteOutOfRange mem a bytes.length (s.memory mem).capacity) := by
  rw [State.hostWrite]; exact if_neg (by omega)

/-- Sizing answers a next state exactly when both sizes are within R56's range and both contents fit, and
then changes the two capacities alone. -/
theorem State.sizeMemories_next (s t : State) (romSize ramSize : Nat) :
    s.sizeMemories romSize ramSize = .next t ↔
      romSize ≤ 65536 ∧ ramSize ≤ 65536 ∧ Memory.fits romSize s.rom.cells = true ∧
        Memory.fits ramSize s.ram.cells = true ∧
        t = { s with
          rom := { s.rom with capacity := romSize }
          ram := { s.ram with capacity := ramSize } } := by
  rw [State.sizeMemories]
  by_cases h : 65536 < romSize ∨ 65536 < ramSize
  · rw [if_pos h]
    exact ⟨fun e => (by cases e), fun ⟨h1, h2, _⟩ => by omega⟩
  · rw [if_neg h]
    by_cases hf : (Memory.fits romSize s.rom.cells && Memory.fits ramSize s.ram.cells) = true
    · rw [if_pos hf]
      rw [Bool.and_eq_true] at hf
      exact ⟨fun e => (by cases e; exact ⟨by omega, by omega, hf.1, hf.2, rfl⟩),
        fun ⟨_, _, _, _, e⟩ => by rw [e]⟩
    · rw [if_neg hf]
      rw [Bool.and_eq_true] at hf
      exact ⟨fun e => (by cases e), fun ⟨_, _, h3, h4, _⟩ => absurd ⟨h3, h4⟩ hf⟩

/-- A well-formed memory that fits a capacity of R56's range is well-formed with it. -/
theorem MemoryBus.resize_wf (m : MemoryBus) (capacity : Nat) (hm : m.wf = true)
    (hc : capacity ≤ 65536) (hf : Memory.fits capacity m.cells = true) :
    MemoryBus.wf { m with capacity := capacity } = true := by
  simp only [MemoryBus.wf, Bool.and_eq_true, decide_eq_true_eq] at hm ⊢
  exact ⟨hc, Memory.wfFrom_of_fits _ _ _ _ hm.2 hf⟩

/-- A memory with a byte string copied in below its capacity is well-formed again. -/
theorem MemoryBus.writeList_wf (m : MemoryBus) (a : Nat) (bytes : List Byte) (hm : m.wf = true)
    (h : a + bytes.length ≤ m.capacity) :
    MemoryBus.wf { m with cells := Memory.writeList m.cells a bytes } = true := by
  simp only [MemoryBus.wf, Bool.and_eq_true, decide_eq_true_eq] at hm ⊢
  exact ⟨hm.1, Memory.writeList_wf _ _ _ _ hm.2 h⟩

end Sys2Proof.Machine
end

