-- ==== Sys2Proof/Laws/Flags.lean ====
section
/-! SUPPORT. The ALU function's parts. -/

namespace Sys2Proof.Machine

@[simp] theorem alu_result (cfg : Config) (o : AluOp) (a t : Byte) (cy : Bool) :
    (alu cfg o a t cy).1 = trunc8 (intermediate cfg o a t cy) := rfl

@[simp] theorem alu_flags (cfg : Config) (o : AluOp) (a t : Byte) (cy : Bool) :
    (alu cfg o a t cy).2 = flagsOf cfg.signMode (intermediate cfg o a t cy) := rfl

@[simp] theorem flagsOf_z (m : SignMode) (i : Int) : (flagsOf m i).z = zeroFlag i := rfl

@[simp] theorem flagsOf_cy (m : SignMode) (i : Int) : (flagsOf m i).cy = carryFlag i := rfl

@[simp] theorem flagsOf_s (m : SignMode) (i : Int) : (flagsOf m i).s = signFlag m i := rfl

@[simp] theorem flagsOf_p (m : SignMode) (i : Int) : (flagsOf m i).p = parityFlag i := rfl

/-- The result is the intermediate modulo 256 (R10, R202). -/
theorem trunc8_toNat (i : Int) : ((trunc8 i).toNat : Int) = i % 256 := by
  rw [trunc8, BitVec.toNat_ofInt]
  have h : 0 ≤ i % 256 := Int.emod_nonneg i (by decide)
  simpa using h

end Sys2Proof.Machine
end

