-- ==== Sys2Proof/Laws/State.lean ====
section
/-! SUPPORT. One lemma per field of `State` per update: what an update writes and what it leaves. -/

namespace Sys2Proof.Machine

/-! ### setReg -/

@[simp] theorem State.setReg_regs (s : State) (r : Reg) (v : Byte) :
    (s.setReg r v).regs = s.regs.set r v := rfl
@[simp] theorem State.setReg_sp (s : State) (r : Reg) (v : Byte) :
    (s.setReg r v).sp = s.sp := rfl
@[simp] theorem State.setReg_pc (s : State) (r : Reg) (v : Byte) :
    (s.setReg r v).pc = s.pc := rfl
@[simp] theorem State.setReg_t (s : State) (r : Reg) (v : Byte) :
    (s.setReg r v).t = s.t := rfl
@[simp] theorem State.setReg_flags (s : State) (r : Reg) (v : Byte) :
    (s.setReg r v).flags = s.flags := rfl
@[simp] theorem State.setReg_op (s : State) (r : Reg) (v : Byte) :
    (s.setReg r v).op = s.op := rfl
@[simp] theorem State.setReg_run (s : State) (r : Reg) (v : Byte) :
    (s.setReg r v).run = s.run := rfl
@[simp] theorem State.setReg_fault (s : State) (r : Reg) (v : Byte) :
    (s.setReg r v).fault = s.fault := rfl
@[simp] theorem State.setReg_rom (s : State) (r : Reg) (v : Byte) :
    (s.setReg r v).rom = s.rom := rfl
@[simp] theorem State.setReg_ram (s : State) (r : Reg) (v : Byte) :
    (s.setReg r v).ram = s.ram := rfl
@[simp] theorem State.setReg_cfg (s : State) (r : Reg) (v : Byte) :
    (s.setReg r v).cfg = s.cfg := rfl
@[simp] theorem State.setReg_freeCount (s : State) (r : Reg) (v : Byte) :
    (s.setReg r v).freeCount = s.freeCount := rfl

/-! ### setPc -/

@[simp] theorem State.setPc_regs (s : State) (w : Addr) :
    (s.setPc w).regs = s.regs := rfl
@[simp] theorem State.setPc_sp (s : State) (w : Addr) :
    (s.setPc w).sp = s.sp := rfl
@[simp] theorem State.setPc_pc (s : State) (w : Addr) :
    (s.setPc w).pc = w := rfl
@[simp] theorem State.setPc_t (s : State) (w : Addr) :
    (s.setPc w).t = s.t := rfl
@[simp] theorem State.setPc_flags (s : State) (w : Addr) :
    (s.setPc w).flags = s.flags := rfl
@[simp] theorem State.setPc_op (s : State) (w : Addr) :
    (s.setPc w).op = s.op := rfl
@[simp] theorem State.setPc_run (s : State) (w : Addr) :
    (s.setPc w).run = s.run := rfl
@[simp] theorem State.setPc_fault (s : State) (w : Addr) :
    (s.setPc w).fault = s.fault := rfl
@[simp] theorem State.setPc_rom (s : State) (w : Addr) :
    (s.setPc w).rom = s.rom := rfl
@[simp] theorem State.setPc_ram (s : State) (w : Addr) :
    (s.setPc w).ram = s.ram := rfl
@[simp] theorem State.setPc_cfg (s : State) (w : Addr) :
    (s.setPc w).cfg = s.cfg := rfl
@[simp] theorem State.setPc_freeCount (s : State) (w : Addr) :
    (s.setPc w).freeCount = s.freeCount := rfl

/-! ### setSp -/

@[simp] theorem State.setSp_regs (s : State) (w : Addr) :
    (s.setSp w).regs = s.regs := rfl
@[simp] theorem State.setSp_sp (s : State) (w : Addr) :
    (s.setSp w).sp = w := rfl
@[simp] theorem State.setSp_pc (s : State) (w : Addr) :
    (s.setSp w).pc = s.pc := rfl
@[simp] theorem State.setSp_t (s : State) (w : Addr) :
    (s.setSp w).t = s.t := rfl
@[simp] theorem State.setSp_flags (s : State) (w : Addr) :
    (s.setSp w).flags = s.flags := rfl
@[simp] theorem State.setSp_op (s : State) (w : Addr) :
    (s.setSp w).op = s.op := rfl
@[simp] theorem State.setSp_run (s : State) (w : Addr) :
    (s.setSp w).run = s.run := rfl
@[simp] theorem State.setSp_fault (s : State) (w : Addr) :
    (s.setSp w).fault = s.fault := rfl
@[simp] theorem State.setSp_rom (s : State) (w : Addr) :
    (s.setSp w).rom = s.rom := rfl
@[simp] theorem State.setSp_ram (s : State) (w : Addr) :
    (s.setSp w).ram = s.ram := rfl
@[simp] theorem State.setSp_cfg (s : State) (w : Addr) :
    (s.setSp w).cfg = s.cfg := rfl
@[simp] theorem State.setSp_freeCount (s : State) (w : Addr) :
    (s.setSp w).freeCount = s.freeCount := rfl

/-! ### setT -/

@[simp] theorem State.setT_regs (s : State) (v : Byte) :
    (s.setT v).regs = s.regs := rfl
@[simp] theorem State.setT_sp (s : State) (v : Byte) :
    (s.setT v).sp = s.sp := rfl
@[simp] theorem State.setT_pc (s : State) (v : Byte) :
    (s.setT v).pc = s.pc := rfl
@[simp] theorem State.setT_t (s : State) (v : Byte) :
    (s.setT v).t = v := rfl
@[simp] theorem State.setT_flags (s : State) (v : Byte) :
    (s.setT v).flags = s.flags := rfl
@[simp] theorem State.setT_op (s : State) (v : Byte) :
    (s.setT v).op = s.op := rfl
@[simp] theorem State.setT_run (s : State) (v : Byte) :
    (s.setT v).run = s.run := rfl
@[simp] theorem State.setT_fault (s : State) (v : Byte) :
    (s.setT v).fault = s.fault := rfl
@[simp] theorem State.setT_rom (s : State) (v : Byte) :
    (s.setT v).rom = s.rom := rfl
@[simp] theorem State.setT_ram (s : State) (v : Byte) :
    (s.setT v).ram = s.ram := rfl
@[simp] theorem State.setT_cfg (s : State) (v : Byte) :
    (s.setT v).cfg = s.cfg := rfl
@[simp] theorem State.setT_freeCount (s : State) (v : Byte) :
    (s.setT v).freeCount = s.freeCount := rfl

/-! ### setFlags -/

@[simp] theorem State.setFlags_regs (s : State) (f : Flags) :
    (s.setFlags f).regs = s.regs := rfl
@[simp] theorem State.setFlags_sp (s : State) (f : Flags) :
    (s.setFlags f).sp = s.sp := rfl
@[simp] theorem State.setFlags_pc (s : State) (f : Flags) :
    (s.setFlags f).pc = s.pc := rfl
@[simp] theorem State.setFlags_t (s : State) (f : Flags) :
    (s.setFlags f).t = s.t := rfl
@[simp] theorem State.setFlags_flags (s : State) (f : Flags) :
    (s.setFlags f).flags = f := rfl
@[simp] theorem State.setFlags_op (s : State) (f : Flags) :
    (s.setFlags f).op = s.op := rfl
@[simp] theorem State.setFlags_run (s : State) (f : Flags) :
    (s.setFlags f).run = s.run := rfl
@[simp] theorem State.setFlags_fault (s : State) (f : Flags) :
    (s.setFlags f).fault = s.fault := rfl
@[simp] theorem State.setFlags_rom (s : State) (f : Flags) :
    (s.setFlags f).rom = s.rom := rfl
@[simp] theorem State.setFlags_ram (s : State) (f : Flags) :
    (s.setFlags f).ram = s.ram := rfl
@[simp] theorem State.setFlags_cfg (s : State) (f : Flags) :
    (s.setFlags f).cfg = s.cfg := rfl
@[simp] theorem State.setFlags_freeCount (s : State) (f : Flags) :
    (s.setFlags f).freeCount = s.freeCount := rfl

/-! ### setOperation -/

@[simp] theorem State.setOperation_regs (s : State) (o : PendingOp) :
    (s.setOperation o).regs = s.regs := rfl
@[simp] theorem State.setOperation_sp (s : State) (o : PendingOp) :
    (s.setOperation o).sp = s.sp := rfl
@[simp] theorem State.setOperation_pc (s : State) (o : PendingOp) :
    (s.setOperation o).pc = s.pc := rfl
@[simp] theorem State.setOperation_t (s : State) (o : PendingOp) :
    (s.setOperation o).t = s.t := rfl
@[simp] theorem State.setOperation_flags (s : State) (o : PendingOp) :
    (s.setOperation o).flags = s.flags := rfl
@[simp] theorem State.setOperation_op (s : State) (o : PendingOp) :
    (s.setOperation o).op = o := rfl
@[simp] theorem State.setOperation_run (s : State) (o : PendingOp) :
    (s.setOperation o).run = s.run := rfl
@[simp] theorem State.setOperation_fault (s : State) (o : PendingOp) :
    (s.setOperation o).fault = s.fault := rfl
@[simp] theorem State.setOperation_rom (s : State) (o : PendingOp) :
    (s.setOperation o).rom = s.rom := rfl
@[simp] theorem State.setOperation_ram (s : State) (o : PendingOp) :
    (s.setOperation o).ram = s.ram := rfl
@[simp] theorem State.setOperation_cfg (s : State) (o : PendingOp) :
    (s.setOperation o).cfg = s.cfg := rfl
@[simp] theorem State.setOperation_freeCount (s : State) (o : PendingOp) :
    (s.setOperation o).freeCount = s.freeCount := rfl

/-! ### raise -/

@[simp] theorem State.raise_regs (s : State) (f : FaultRecord) :
    (s.raise f).regs = s.regs := rfl
@[simp] theorem State.raise_sp (s : State) (f : FaultRecord) :
    (s.raise f).sp = s.sp := rfl
@[simp] theorem State.raise_pc (s : State) (f : FaultRecord) :
    (s.raise f).pc = s.pc := rfl
@[simp] theorem State.raise_t (s : State) (f : FaultRecord) :
    (s.raise f).t = s.t := rfl
@[simp] theorem State.raise_flags (s : State) (f : FaultRecord) :
    (s.raise f).flags = s.flags := rfl
@[simp] theorem State.raise_op (s : State) (f : FaultRecord) :
    (s.raise f).op = Config.faultedOp s.freeCount := rfl
@[simp] theorem State.raise_run (s : State) (f : FaultRecord) :
    (s.raise f).run = .faulted := rfl
@[simp] theorem State.raise_fault (s : State) (f : FaultRecord) :
    (s.raise f).fault = some f := rfl
@[simp] theorem State.raise_rom (s : State) (f : FaultRecord) :
    (s.raise f).rom = s.rom := rfl
@[simp] theorem State.raise_ram (s : State) (f : FaultRecord) :
    (s.raise f).ram = s.ram := rfl
@[simp] theorem State.raise_cfg (s : State) (f : FaultRecord) :
    (s.raise f).cfg = s.cfg := rfl
@[simp] theorem State.raise_freeCount (s : State) (f : FaultRecord) :
    (s.raise f).freeCount = s.freeCount + 1 := rfl

/-! ### aluOperand -/

@[simp] theorem State.aluOperand_regs (s : State) (o : AluOp) (r : Reg) :
    (s.aluOperand o r).regs = s.regs := rfl
@[simp] theorem State.aluOperand_sp (s : State) (o : AluOp) (r : Reg) :
    (s.aluOperand o r).sp = s.sp := rfl
@[simp] theorem State.aluOperand_pc (s : State) (o : AluOp) (r : Reg) :
    (s.aluOperand o r).pc = s.pc := rfl
@[simp] theorem State.aluOperand_t (s : State) (o : AluOp) (r : Reg) :
    (s.aluOperand o r).t = s.reg r := rfl
@[simp] theorem State.aluOperand_flags (s : State) (o : AluOp) (r : Reg) :
    (s.aluOperand o r).flags = s.flags := rfl
@[simp] theorem State.aluOperand_op (s : State) (o : AluOp) (r : Reg) :
    (s.aluOperand o r).op = .op o := rfl
@[simp] theorem State.aluOperand_run (s : State) (o : AluOp) (r : Reg) :
    (s.aluOperand o r).run = s.run := rfl
@[simp] theorem State.aluOperand_fault (s : State) (o : AluOp) (r : Reg) :
    (s.aluOperand o r).fault = s.fault := rfl
@[simp] theorem State.aluOperand_rom (s : State) (o : AluOp) (r : Reg) :
    (s.aluOperand o r).rom = s.rom := rfl
@[simp] theorem State.aluOperand_ram (s : State) (o : AluOp) (r : Reg) :
    (s.aluOperand o r).ram = s.ram := rfl
@[simp] theorem State.aluOperand_cfg (s : State) (o : AluOp) (r : Reg) :
    (s.aluOperand o r).cfg = s.cfg := rfl
@[simp] theorem State.aluOperand_freeCount (s : State) (o : AluOp) (r : Reg) :
    (s.aluOperand o r).freeCount = s.freeCount := rfl

/-! ### applyReset -/

@[simp] theorem State.applyReset_regs (s : State) :
    s.applyReset.regs = { a := 0, b := 0, c := 0, d := 0, e := 0, h := 0, l := 0 } := rfl
@[simp] theorem State.applyReset_sp (s : State) :
    s.applyReset.sp = 0 := rfl
@[simp] theorem State.applyReset_pc (s : State) :
    s.applyReset.pc = 0 := rfl
@[simp] theorem State.applyReset_t (s : State) :
    s.applyReset.t = 0 := rfl
@[simp] theorem State.applyReset_flags (s : State) :
    s.applyReset.flags = { z := false, cy := false, s := false, p := false } := rfl
@[simp] theorem State.applyReset_op (s : State) :
    s.applyReset.op = .noOp := rfl
@[simp] theorem State.applyReset_run (s : State) :
    s.applyReset.run = .running := rfl
@[simp] theorem State.applyReset_fault (s : State) :
    s.applyReset.fault = none := rfl
@[simp] theorem State.applyReset_rom (s : State) :
    s.applyReset.rom = s.rom := rfl
@[simp] theorem State.applyReset_ram (s : State) :
    s.applyReset.ram = s.ram := rfl
@[simp] theorem State.applyReset_cfg (s : State) :
    s.applyReset.cfg = s.cfg := rfl
@[simp] theorem State.applyReset_freeCount (s : State) :
    s.applyReset.freeCount = s.freeCount := rfl

/-! ### The derived readings -/

theorem State.reg_eq (s : State) (r : Reg) : s.reg r = s.regs.get r := rfl

theorem State.flag_eq (s : State) (k : Flag) : s.flag k = s.flags.get k := rfl

theorem State.hl_eq (s : State) : s.hl = s.regs.hl := rfl

@[simp] theorem State.setPc_reg (s : State) (w : Addr) (x : Reg) :
    (s.setPc w).reg x = s.reg x := rfl
@[simp] theorem State.setPc_hl (s : State) (w : Addr) : (s.setPc w).hl = s.hl := rfl
@[simp] theorem State.setPc_flag (s : State) (w : Addr) (x : Flag) :
    (s.setPc w).flag x = s.flag x := rfl
@[simp] theorem State.setSp_reg (s : State) (w : Addr) (x : Reg) :
    (s.setSp w).reg x = s.reg x := rfl
@[simp] theorem State.setSp_hl (s : State) (w : Addr) : (s.setSp w).hl = s.hl := rfl
@[simp] theorem State.setSp_flag (s : State) (w : Addr) (x : Flag) :
    (s.setSp w).flag x = s.flag x := rfl
@[simp] theorem State.setT_reg (s : State) (v : Byte) (x : Reg) :
    (s.setT v).reg x = s.reg x := rfl
@[simp] theorem State.setT_hl (s : State) (v : Byte) : (s.setT v).hl = s.hl := rfl
@[simp] theorem State.setT_flag (s : State) (v : Byte) (x : Flag) :
    (s.setT v).flag x = s.flag x := rfl
@[simp] theorem State.setFlags_reg (s : State) (f : Flags) (x : Reg) :
    (s.setFlags f).reg x = s.reg x := rfl
@[simp] theorem State.setFlags_hl (s : State) (f : Flags) : (s.setFlags f).hl = s.hl := rfl
@[simp] theorem State.setOperation_reg (s : State) (o : PendingOp) (x : Reg) :
    (s.setOperation o).reg x = s.reg x := rfl
@[simp] theorem State.setOperation_hl (s : State) (o : PendingOp) : (s.setOperation o).hl = s.hl := rfl
@[simp] theorem State.setOperation_flag (s : State) (o : PendingOp) (x : Flag) :
    (s.setOperation o).flag x = s.flag x := rfl
@[simp] theorem State.raise_reg (s : State) (f : FaultRecord) (x : Reg) :
    (s.raise f).reg x = s.reg x := rfl
@[simp] theorem State.raise_hl (s : State) (f : FaultRecord) : (s.raise f).hl = s.hl := rfl
@[simp] theorem State.raise_flag (s : State) (f : FaultRecord) (x : Flag) :
    (s.raise f).flag x = s.flag x := rfl
@[simp] theorem State.aluOperand_reg (s : State) (o : AluOp) (r : Reg) (x : Reg) :
    (s.aluOperand o r).reg x = s.reg x := rfl
@[simp] theorem State.aluOperand_hl (s : State) (o : AluOp) (r : Reg) : (s.aluOperand o r).hl = s.hl := rfl
@[simp] theorem State.aluOperand_flag (s : State) (o : AluOp) (r : Reg) (x : Flag) :
    (s.aluOperand o r).flag x = s.flag x := rfl
@[simp] theorem State.setReg_flag (s : State) (r : Reg) (v : Byte) (x : Flag) :
    (s.setReg r v).flag x = s.flag x := rfl

/-! ### Registers -/

@[simp] theorem Regs.get_set_same (g : Regs) (r : Reg) (v : Byte) : (g.set r v).get r = v := by
  cases r <;> rfl

theorem Regs.get_set_other (g : Regs) (r x : Reg) (v : Byte) (h : x ≠ r) :
    (g.set r v).get x = g.get x := by
  cases r <;> cases x <;> first | rfl | exact absurd rfl h

theorem Regs.ext_get (g k : Regs) (h : ∀ r, g.get r = k.get r) : g = k := by
  cases g; cases k
  simpa [Regs.get] using
    (⟨h .a, h .b, h .c, h .d, h .e, h .h, h .l⟩ : _ ∧ _ ∧ _ ∧ _ ∧ _ ∧ _ ∧ _)

@[simp] theorem State.setReg_reg_same (s : State) (r : Reg) (v : Byte) : (s.setReg r v).reg r = v :=
  Regs.get_set_same s.regs r v

theorem State.setReg_reg_other (s : State) (r x : Reg) (v : Byte) (h : x ≠ r) :
    (s.setReg r v).reg x = s.reg x :=
  Regs.get_set_other s.regs r x v h

end Sys2Proof.Machine
end

