-- ==== Sys2Proof/Laws/Ops.lean ====
section
/-! SUPPORT. For each shared operation, what it answers, once. -/

namespace Sys2Proof.Machine

@[simp] theorem Attempt.outcome_ok (s : State) : Attempt.outcome (.ok s) = .next s := rfl

@[simp] theorem Attempt.outcome_error (s : State) : Attempt.outcome (.error s) = .next s := rfl

@[simp] theorem Attempt.bind_ok {α β : Type} (v : α) (k : α → Attempt β) :
    (Bind.bind (m := Except State) (.ok v) k) = k v := rfl

@[simp] theorem Attempt.bind_error {α β : Type} (s : State) (k : α → Attempt β) :
    (Bind.bind (m := Except State) (.error s) k) = .error s := rfl

@[simp] theorem Attempt.pure_ok {α : Type} (v : α) :
    (Pure.pure (f := Except State) v) = .ok v := rfl

/-! ### 16-bit arithmetic -/

/-- `inc16` answers the next word, but for 0xFFFF under `WRAP16 = fault` (R27). -/
theorem inc16_eq (m : Wrap16) (w : Addr) :
    inc16 m w = if m = .fault ∧ w = 0xFFFF#16 then none else some (w + 1) := by
  cases m <;> simp [inc16]

/-- `dec16` answers the word before, but for 0x0000 under `WRAP16 = fault` (R27). -/
theorem dec16_eq (m : Wrap16) (w : Addr) :
    dec16 m w = if m = .fault ∧ w = 0x0000#16 then none else some (w - 1) := by
  cases m <;> simp [dec16]

theorem State.incPc_eq (s : State) :
    s.incPc = if s.cfg.wrap16 = .fault ∧ s.pc = 0xFFFF#16
      then .error (s.raise (.internal .overflow16)) else .ok (s.setPc (s.pc + 1)) := by
  rw [State.incPc, inc16_eq]
  by_cases h : s.cfg.wrap16 = .fault ∧ s.pc = 0xFFFF#16
  · rw [if_pos h, if_pos h]
  · rw [if_neg h, if_neg h]

theorem State.incSp_eq (s : State) :
    s.incSp = if s.cfg.wrap16 = .fault ∧ s.sp = 0xFFFF#16
      then .error (s.raise (.internal .overflow16)) else .ok (s.setSp (s.sp + 1)) := by
  rw [State.incSp, inc16_eq]
  by_cases h : s.cfg.wrap16 = .fault ∧ s.sp = 0xFFFF#16
  · rw [if_pos h, if_pos h]
  · rw [if_neg h, if_neg h]

theorem State.decSp_eq (s : State) :
    s.decSp = if s.cfg.wrap16 = .fault ∧ s.sp = 0x0000#16
      then .error (s.raise (.internal .overflow16)) else .ok (s.setSp (s.sp - 1)) := by
  rw [State.decSp, dec16_eq]
  by_cases h : s.cfg.wrap16 = .fault ∧ s.sp = 0x0000#16
  · rw [if_pos h, if_pos h]
  · rw [if_neg h, if_neg h]

/-! ### Memory accesses -/

theorem State.romRead_eq (s : State) (a : Addr) :
    s.romRead a = if a.toNat < s.rom.capacity then .ok (s.rom.byteAt a)
      else .error (s.raise (.memRange .rom .read a)) := by
  rw [State.romRead, MemoryBus.read]
  by_cases h : a.toNat < s.rom.capacity
  · rw [if_pos h, if_pos h]
  · rw [if_neg h, if_neg h]

theorem State.ramRead_eq (s : State) (a : Addr) :
    s.ramRead a = if a.toNat < s.ram.capacity then .ok (s.ram.byteAt a)
      else .error (s.raise (.memRange .ram .read a)) := by
  rw [State.ramRead, MemoryBus.read]
  by_cases h : a.toNat < s.ram.capacity
  · rw [if_pos h, if_pos h]
  · rw [if_neg h, if_neg h]

theorem State.ramWrite_eq (s : State) (a : Addr) (v : Byte) :
    s.ramWrite a v = if a.toNat < s.ram.capacity
      then .ok { s with ram := { s.ram with cells := Memory.write s.ram.cells a.toNat v } }
      else .error (s.raise (.memRange .ram .write a)) := by
  rw [State.ramWrite, MemoryBus.write]
  by_cases h : a.toNat < s.ram.capacity
  · rw [if_pos h, if_pos h]
  · rw [if_neg h, if_neg h]

theorem State.romRead_of_lt (s : State) (a : Addr) (h : a.toNat < s.rom.capacity) :
    s.romRead a = .ok (s.rom.byteAt a) := by
  rw [State.romRead_eq, if_pos h]

theorem State.romRead_of_ge (s : State) (a : Addr) (h : ¬ a.toNat < s.rom.capacity) :
    s.romRead a = .error (s.raise (.memRange .rom .read a)) := by
  rw [State.romRead_eq, if_neg h]

theorem State.ramRead_of_lt (s : State) (a : Addr) (h : a.toNat < s.ram.capacity) :
    s.ramRead a = .ok (s.ram.byteAt a) := by
  rw [State.ramRead_eq, if_pos h]

theorem State.ramRead_of_ge (s : State) (a : Addr) (h : ¬ a.toNat < s.ram.capacity) :
    s.ramRead a = .error (s.raise (.memRange .ram .read a)) := by
  rw [State.ramRead_eq, if_neg h]

/-! ### The ALU -/

/-- The to-accumulator class always completes, with these writes and no other (R209). -/
theorem State.aluToAccumulator_eq (s : State) (o : AluOp) (r : Reg) :
    s.aluToAccumulator o r =
      .ok { s with
        regs := s.regs.set .a (alu s.cfg o (s.reg .a) (s.reg r) s.flags.cy).1
        t := s.reg r
        flags := (alu s.cfg o (s.reg .a) (s.reg r) s.flags.cy).2
        op := .noOp } := rfl

/-- The flag-only class always completes, with these writes and no other (R209). -/
theorem State.aluFlagOnly_eq (s : State) (o : AluOp) (r : Reg) :
    s.aluFlagOnly o r =
      .ok { s with
        t := s.reg r
        flags := (alu s.cfg o (s.reg .a) (s.reg r) s.flags.cy).2
        op := .noOp } := rfl

end Sys2Proof.Machine
end

