-- ==== Sys2Proof/Laws/Step.lean ====
section
/-! SUPPORT. What each meaning answers, in closed form, and what a fetch and a step can do: the later
proofs cite these and unfold none of them. -/

namespace Sys2Proof.Machine

/-! ### Meanings -/

theorem exec_ldi (dst : Reg) (n : Byte) (s : State) :
    exec (.ldi dst n) s = .next (if s.cfg.wrap16 = .fault ∧ s.pc = 0xFFFF#16
      then s.raise (.internal .overflow16) else (s.setPc (s.pc + 1)).setReg dst n) := by
  rw [exec, execLdi, State.incPc_eq]
  by_cases h : s.cfg.wrap16 = .fault ∧ s.pc = 0xFFFF#16
  · rw [if_pos h, if_pos h]; rfl
  · rw [if_neg h, if_neg h]; rfl

theorem exec_mov (dst src : Reg) (s : State) :
    exec (.mov dst src) s = .next ((s.setT (s.reg src)).setReg dst (s.reg src)) := rfl

theorem exec_stm (src : Reg) (s : State) :
    exec (.stm src) s = .next (if s.hl.toNat < s.ram.capacity
      then { s with ram := { s.ram with cells := Memory.write s.ram.cells s.hl.toNat (s.reg src) } }
      else s.raise (.memRange .ram .write s.hl)) := by
  rw [exec, execStm, State.ramWrite_eq]
  by_cases h : s.hl.toNat < s.ram.capacity
  · rw [if_pos h, if_pos h]; rfl
  · rw [if_neg h, if_neg h]; rfl

theorem exec_ldm (dst : Reg) (s : State) :
    exec (.ldm dst) s = .next (if s.hl.toNat < s.ram.capacity
      then s.setReg dst (s.ram.byteAt s.hl) else s.raise (.memRange .ram .read s.hl)) := by
  rw [exec, execLdm, State.ramRead_eq]
  by_cases h : s.hl.toNat < s.ram.capacity
  · rw [if_pos h, if_pos h]; rfl
  · rw [if_neg h, if_neg h]; rfl

/-- The state in which a PUSH has stored its byte. -/
def State.pushed (s : State) (src : Reg) : State :=
  { s with ram := { s.ram with cells := Memory.write s.ram.cells s.sp.toNat (s.reg src) } }

theorem exec_push (src : Reg) (s : State) :
    exec (.push src) s = .next (if s.sp.toNat < s.ram.capacity
      then (if s.cfg.wrap16 = .fault ∧ s.sp = 0x0000#16
        then (s.pushed src).raise (.internal .overflow16) else (s.pushed src).setSp (s.sp - 1))
      else s.raise (.memRange .ram .write s.sp)) := by
  rw [exec, execPush, State.ramWrite_eq]
  by_cases h : s.sp.toNat < s.ram.capacity
  · rw [if_pos h, if_pos h, Attempt.bind_ok, State.decSp_eq]
    by_cases h2 : s.cfg.wrap16 = .fault ∧ s.sp = 0x0000#16
    · rw [if_pos h2, if_pos h2]; rfl
    · rw [if_neg h2, if_neg h2]; rfl
  · rw [if_neg h, if_neg h]; rfl

theorem exec_pop (dst : Reg) (s : State) :
    exec (.pop dst) s = .next (if s.cfg.wrap16 = .fault ∧ s.sp = 0xFFFF#16
      then s.raise (.internal .overflow16)
      else if (s.sp + 1).toNat < s.ram.capacity
        then (s.setSp (s.sp + 1)).setReg dst (s.ram.byteAt (s.sp + 1))
        else (s.setSp (s.sp + 1)).raise (.memRange .ram .read (s.sp + 1))) := by
  rw [exec, execPop, State.incSp_eq]
  by_cases h : s.cfg.wrap16 = .fault ∧ s.sp = 0xFFFF#16
  · rw [if_pos h, if_pos h]; rfl
  · rw [if_neg h, if_neg h, Attempt.bind_ok, State.setSp_sp, State.ramRead_eq, State.setSp_ram]
    by_cases h2 : (s.sp + 1).toNat < s.ram.capacity
    · rw [if_pos h2, if_pos h2]; rfl
    · rw [if_neg h2, if_neg h2]; rfl

theorem exec_lsp (s : State) : exec .lsp s = .next (s.setSp s.hl) := rfl

theorem exec_lpc (s : State) : exec .lpc s = .next (s.setPc s.hl) := rfl

theorem exec_jfs (f : Flag) (s : State) :
    exec (.jfs f) s = .next (if s.flag f then s.setPc s.hl else s) := rfl

theorem exec_jfr (f : Flag) (s : State) :
    exec (.jfr f) s = .next (if s.flag f then s else s.setPc s.hl) := rfl

theorem exec_hlt (s : State) : exec .hlt s = .next { s with run := .halted } := rfl

/-- The state after a to-accumulator instruction. -/
def State.afterAlu (s : State) (o : AluOp) (r : Reg) : State :=
  { s with
    regs := s.regs.set .a (alu s.cfg o (s.reg .a) (s.reg r) s.flags.cy).1
    t := s.reg r
    flags := (alu s.cfg o (s.reg .a) (s.reg r) s.flags.cy).2
    op := .noOp }

/-- The state after a flag-only instruction. -/
def State.afterAluFlags (s : State) (o : AluOp) (r : Reg) : State :=
  { s with
    t := s.reg r
    flags := (alu s.cfg o (s.reg .a) (s.reg r) s.flags.cy).2
    op := .noOp }

theorem exec_accInstr (o : AluOp) (r : Reg) (s : State) :
    exec (accInstr o r) s = .next (s.afterAlu o r) := by
  cases o <;> rfl

theorem exec_flagInstr (o : AluOp) (r : Reg) (j : Instr) (s : State) (h : flagInstr o r = .instr j) :
    exec j s = .next (s.afterAluFlags o r) := by
  cases o <;> simp only [flagInstr, Decoded.instr.injEq, reduceCtorEq] at h <;> subst h <;> rfl

theorem execAndFlagOnly_eq (r : Reg) (s : State) :
    execAndFlagOnly r s = .next (s.afterAluFlags .and r) := rfl

/-- An arithmetic/logic instruction is one of the two forms of its operation. -/
theorem alu_form (i : Instr) (k : AluClass) (o : AluOp) (r : Reg) (h : i.alu? = some (k, o, r)) :
    (k = .toAccumulator ∧ i = accInstr o r) ∨ (k = .flagOnly ∧ flagInstr o r = .instr i) := by
  cases i <;> simp only [Instr.alu?, Option.some.injEq, Prod.mk.injEq, reduceCtorEq] at h <;>
    obtain ⟨rfl, rfl, rfl⟩ := h <;> simp [accInstr, flagInstr]

theorem exec_add (r : Reg) (s : State) : exec (.add r) s = .next (s.afterAlu .add r) := rfl

theorem exec_adc (r : Reg) (s : State) : exec (.adc r) s = .next (s.afterAlu .adc r) := rfl

theorem exec_sub (r : Reg) (s : State) : exec (.sub r) s = .next (s.afterAlu .sub r) := rfl

theorem exec_sbb (r : Reg) (s : State) : exec (.sbb r) s = .next (s.afterAlu .sbb r) := rfl

theorem exec_and (r : Reg) (s : State) : exec (.and r) s = .next (s.afterAlu .and r) := rfl

theorem exec_or (r : Reg) (s : State) : exec (.or r) s = .next (s.afterAlu .or r) := rfl

theorem exec_xor (r : Reg) (s : State) : exec (.xor r) s = .next (s.afterAlu .xor r) := rfl

theorem exec_not (r : Reg) (s : State) : exec (.not r) s = .next (s.afterAlu .not r) := rfl

theorem exec_addf (r : Reg) (s : State) :
    exec (.addf r) s = .next (s.afterAluFlags .add r) := rfl

theorem exec_adcf (r : Reg) (s : State) :
    exec (.adcf r) s = .next (s.afterAluFlags .adc r) := rfl

theorem exec_subf (r : Reg) (s : State) :
    exec (.subf r) s = .next (s.afterAluFlags .sub r) := rfl

theorem exec_sbbf (r : Reg) (s : State) :
    exec (.sbbf r) s = .next (s.afterAluFlags .sbb r) := rfl

theorem exec_orf (r : Reg) (s : State) :
    exec (.orf r) s = .next (s.afterAluFlags .or r) := rfl

theorem exec_xorf (r : Reg) (s : State) :
    exec (.xorf r) s = .next (s.afterAluFlags .xor r) := rfl

theorem exec_notf (r : Reg) (s : State) :
    exec (.notf r) s = .next (s.afterAluFlags .not r) := rfl

/-! ### Fetch -/

theorem State.fetch_eq (s : State) :
    s.fetch = if s.pc.toNat < s.rom.capacity
      then (if s.cfg.wrap16 = .fault ∧ s.pc = 0xFFFF#16
        then .error (s.raise (.internal .overflow16))
        else match classify s.cfg.decode (s.rom.byteAt s.pc) with
          | .error _ => .error ((s.setPc (s.pc + 1)).raise (.decode (s.rom.byteAt s.pc)))
          | .ok (.whole i) => .ok (i, s.setPc (s.pc + 1))
          | .ok (.immediateLoad dst) => if (s.pc + 1).toNat < s.rom.capacity
            then .ok (.instr (.ldi dst (s.rom.byteAt (s.pc + 1))), s.setPc (s.pc + 1))
            else .error ((s.setPc (s.pc + 1)).raise (.memRange .rom .read (s.pc + 1))))
      else .error (s.raise (.memRange .rom .read s.pc)) := by
  rw [State.fetch, State.romRead_eq]
  by_cases h : s.pc.toNat < s.rom.capacity
  · rw [if_pos h, if_pos h, Attempt.bind_ok, State.incPc_eq]
    by_cases h2 : s.cfg.wrap16 = .fault ∧ s.pc = 0xFFFF#16
    · rw [if_pos h2, if_pos h2]; rfl
    · rw [if_neg h2, if_neg h2, Attempt.bind_ok]
      cases hc : classify s.cfg.decode (s.rom.byteAt s.pc) with
      | error e => rfl
      | ok k =>
        cases k with
        | whole i => rfl
        | immediateLoad dst =>
          simp only [State.setPc_pc]
          by_cases h3 : (s.pc + 1).toNat < s.rom.capacity
          · rw [State.romRead_of_lt (s.setPc (s.pc + 1)) (s.pc + 1) h3, if_pos h3]; rfl
          · rw [State.romRead_of_ge (s.setPc (s.pc + 1)) (s.pc + 1) h3, if_neg h3]; rfl
  · rw [if_neg h, if_neg h]; rfl

/-- A fetch that succeeds: the opcode is in range, PC has moved past it, and the instruction is the
classified one, or the Immediate-load with the byte after it. -/
theorem State.fetch_ok (s s1 : State) (d : Decoded) (h : s.fetch = .ok (d, s1)) :
    s.pc.toNat < s.rom.capacity ∧ ¬ (s.cfg.wrap16 = .fault ∧ s.pc = 0xFFFF#16) ∧
      s1 = s.setPc (s.pc + 1) ∧
      (classify s.cfg.decode (s.rom.byteAt s.pc) = .ok (.whole d) ∨
        ∃ dst, classify s.cfg.decode (s.rom.byteAt s.pc) = .ok (.immediateLoad dst) ∧
          (s.pc + 1).toNat < s.rom.capacity ∧ d = .instr (.ldi dst (s.rom.byteAt (s.pc + 1)))) := by
  rw [State.fetch_eq] at h
  by_cases h1 : s.pc.toNat < s.rom.capacity
  · rw [if_pos h1] at h
    by_cases h2 : s.cfg.wrap16 = .fault ∧ s.pc = 0xFFFF#16
    · rw [if_pos h2] at h; cases h
    · rw [if_neg h2] at h
      cases hc : classify s.cfg.decode (s.rom.byteAt s.pc) with
      | error e => rw [hc] at h; cases h
      | ok k =>
        rw [hc] at h
        cases k with
        | whole i => cases h; exact ⟨h1, h2, rfl, .inl rfl⟩
        | immediateLoad dst =>
          by_cases h3 : (s.pc + 1).toNat < s.rom.capacity
          · simp only [if_pos h3] at h; cases h; exact ⟨h1, h2, rfl, .inr ⟨dst, rfl, h3, rfl⟩⟩
          · simp only [if_neg h3] at h; cases h
  · rw [if_neg h1] at h; cases h

/-- A fetch that fails ends in a fault raised either before PC has moved or after. -/
theorem State.fetch_error (s t : State) (h : s.fetch = .error t) :
    ∃ f, t = s.raise f ∨ t = (s.setPc (s.pc + 1)).raise f := by
  rw [State.fetch_eq] at h
  by_cases h1 : s.pc.toNat < s.rom.capacity
  · rw [if_pos h1] at h
    by_cases h2 : s.cfg.wrap16 = .fault ∧ s.pc = 0xFFFF#16
    · rw [if_pos h2] at h; cases h; exact ⟨_, .inl rfl⟩
    · rw [if_neg h2] at h
      cases hc : classify s.cfg.decode (s.rom.byteAt s.pc) with
      | error e => rw [hc] at h; cases h; exact ⟨_, .inr rfl⟩
      | ok k =>
        rw [hc] at h
        cases k with
        | whole i => cases h
        | immediateLoad dst =>
          by_cases h3 : (s.pc + 1).toNat < s.rom.capacity
          · simp only [if_pos h3] at h; cases h
          · simp only [if_neg h3] at h; cases h; exact ⟨_, .inr rfl⟩
  · rw [if_neg h1] at h; cases h; exact ⟨_, .inl rfl⟩

/-! ### Step -/

theorem step_of_running (s : State) (h : s.run = .running) : step s = stepRunning s := by
  rw [step, h]

theorem step_of_stopped (s : State) (h : s.run ≠ .running) : step s = .next s := by
  rw [step]; cases hr : s.run <;> first | rfl | exact absurd hr h

/-- Everything a step can do. -/
theorem step_cases (s t : State) (h : step s = .next t) :
    (s.run ≠ .running ∧ t = s) ∨
    (s.run = .running ∧ s.fetch = .error t) ∨
    (s.run = .running ∧ ∃ i s1, s.fetch = .ok (.instr i, s1) ∧ exec i s1 = .next t) ∨
    (s.run = .running ∧ ∃ r s1, s.fetch = .ok (.andFlagOnly r, s1) ∧
      t = s1.afterAluFlags .and r) := by
  by_cases hr : s.run = .running
  · rw [step_of_running s hr, stepRunning] at h
    cases hf : s.fetch with
    | error u => rw [hf] at h; cases h; exact .inr (.inl ⟨hr, rfl⟩)
    | ok p =>
      obtain ⟨d, s1⟩ := p
      rw [hf] at h
      cases d with
      | instr i => exact .inr (.inr (.inl ⟨hr, i, s1, rfl, h⟩))
      | andFlagOnly r =>
        have h' : Host.Outcome.next (s1.afterAluFlags .and r) =
            (Host.Outcome.next t : Host.Outcome State Fault Refusal) := h
        cases h'
        exact .inr (.inr (.inr ⟨hr, r, s1, rfl, rfl⟩))
  · rw [step_of_stopped s hr] at h; cases h; exact .inl ⟨hr, rfl⟩

end Sys2Proof.Machine
end

