-- ==== Sys2Proof/Tests/Slice0.lean ====
section
/-! SUPPORT. Tests. Every expected value comes from spec/: the byte map and the decoding vectors K1 to K37
(30_encoding.md R91, 95_test_vectors.md 2.7), the one-step vectors V1 to V160, the fault runs F1 to F13
and the vectors under other parameters Q1 to Q11 (95_test_vectors.md 2.1 to 2.9). After the tests, for
each statement that has hypotheses, a concrete state and operands that meet them. -/

namespace Sys2Proof.Tests

open Sys2Proof.Machine

/-! ### Helpers -/

/-- A register file; what is not named is 0. -/
def rg (a : Byte := 0) (b : Byte := 0) (c : Byte := 0) (d : Byte := 0) (e : Byte := 0) (h : Byte := 0)
    (l : Byte := 0) : Regs :=
  ⟨a, b, c, d, e, h, l⟩

/-- The reset state with some code at address 0 and memories of the sizes of a vector. -/
def boot (code : List Byte) (ramSize : Nat) (g : Regs := rg) : State :=
  { State.reset with
    regs := g
    rom := ⟨code.length, Memory.writeList [] 0 code⟩
    ram := ⟨ramSize, []⟩ }

/-- The same with flags, in the vectors' order Z CY S P. -/
def bootFlags (code : List Byte) (g : Regs) (z cy s p : Bool) : State :=
  { boot code 16 g with flags := ⟨z, cy, s, p⟩ }

/-- The state after one step. -/
def after (s : State) : State :=
  match step s with
  | .next t => t
  | .fault _ => s
  | .refused _ => s

/-- What the arithmetic vectors list: A, T, then Z CY S P. -/
def seen (s : State) : Byte × Byte × List Bool :=
  (s.regs.a, s.t, [s.flags.z, s.flags.cy, s.flags.s, s.flags.p])

/-- The decoder under the default parameters. -/
def dec (bytes : List Byte) : Except DecodeError (Decoded × List Byte) :=
  decode Config.specDefault.decode bytes

/-- The default decode parameters in the other arithmetic/logic layout (R98). -/
def otherLayout : DecodeConfig := { Config.specDefault.decode with aluLayout := .opSrcRegCtl }

/-! ### Ill-formed terms are refused (R8, R56, R85) -/

theorem test_wf_default : Config.specDefault.wellFormed = true := by decide

theorem test_wf_refuses_register_twice :
    ({ Config.specDefault.decode with regCode := [.a, .a, .c, .d, .e, .h, .l] }).regCodeOk = false := by
  decide

theorem test_wf_refuses_seven_flags_of_three :
    ({ Config.specDefault.decode with flagCode := [.z, .s, .p] }).flagCodeOk = false := by decide

theorem test_wf_refuses_operation_missing :
    ({ Config.specDefault.decode with aluOpCode := [.add, .adc, .sub, .sbb, .and, .or, .xor] }).opCodeOk
      = false := by
  decide

theorem test_wf_refuses_config :
    ({ Config.specDefault with decode := { Config.specDefault.decode with flagCode := [] } }).wellFormed
      = false := by
  decide

/-- R98: in the other layout the flag-only instructions on register E have no opcode. -/
theorem test_wf_refuses_flag_only_on_e :
    (Instr.addf .e).wellFormed otherLayout = false ∧
      (Decoded.andFlagOnly .e).wellFormed otherLayout = false := by
  decide

theorem test_wf_refuses_flag_only_and : (Decoded.andFlagOnly .a).wellFormed Config.specDefault.decode =
    false := by
  decide

theorem test_wf_refuses_capacity : MemoryBus.wf ⟨65537, []⟩ = false := by decide

theorem test_wf_refuses_unsorted_memory : Memory.wf 16 [(2, 1), (1, 1)] = false := by decide

theorem test_wf_refuses_listed_zero : Memory.wf 16 [(2, 0)] = false := by decide

theorem test_wf_refuses_address_at_capacity : Memory.wf 16 [(16, 1)] = false := by decide

/-! ### Every constructor's decoding, from a byte of R91's map -/

theorem test_decode_ldi : dec [0b00000101, 0x80] = .ok (.instr (.ldi .h 0x80), []) := by decide
theorem test_decode_push : dec [0b00001111] = .ok (.instr (.push .b), []) := by decide
theorem test_decode_pop : dec [0b00111010] = .ok (.instr (.pop .c), []) := by decide
theorem test_decode_lsp : dec [0b00111111] = .ok (.instr .lsp, []) := by decide
theorem test_decode_lpc : dec [0b00100100] = .ok (.instr .lpc, []) := by decide
theorem test_decode_mov : dec [0b01000001] = .ok (.instr (.mov .b .a), []) := by decide
theorem test_decode_stm : dec [0b01001111] = .ok (.instr (.stm .b), []) := by decide
theorem test_decode_ldm : dec [0b01111001] = .ok (.instr (.ldm .b), []) := by decide
theorem test_decode_jfs : dec [0b11011100] = .ok (.instr (.jfs .s), []) := by decide
theorem test_decode_jfr : dec [0b11110100] = .ok (.instr (.jfr .cy), []) := by decide
theorem test_decode_hlt : dec [0b11111111] = .ok (.instr .hlt, []) := by decide
theorem test_decode_add : dec [0b10001000] = .ok (.instr (.add .b), []) := by decide
theorem test_decode_adc : dec [0b10010001] = .ok (.instr (.adc .c), []) := by decide
theorem test_decode_sub : dec [0b10001010] = .ok (.instr (.sub .b), []) := by decide
theorem test_decode_sbb : dec [0b10011011] = .ok (.instr (.sbb .d), []) := by decide
theorem test_decode_and : dec [0b10100100] = .ok (.instr (.and .e), []) := by decide
theorem test_decode_or : dec [0b10101101] = .ok (.instr (.or .h), []) := by decide
theorem test_decode_xor : dec [0b10110110] = .ok (.instr (.xor .l), []) := by decide
theorem test_decode_not : dec [0b10000111] = .ok (.instr (.not .a), []) := by decide
theorem test_decode_addf : dec [0b11001000] = .ok (.instr (.addf .b), []) := by decide
theorem test_decode_adcf : dec [0b11010001] = .ok (.instr (.adcf .c), []) := by decide
theorem test_decode_subf : dec [0b11011010] = .ok (.instr (.subf .d), []) := by decide
theorem test_decode_sbbf : dec [0b11100011] = .ok (.instr (.sbbf .e), []) := by decide
theorem test_decode_orf : dec [0b11001101] = .ok (.instr (.orf .b), []) := by decide
theorem test_decode_xorf : dec [0b11101110] = .ok (.instr (.xorf .h), []) := by decide
theorem test_decode_notf : dec [0b11001111] = .ok (.instr (.notf .b), []) := by decide

/-- K1, K7, K15, K22, K26, K31, K32: corners of the map. -/
theorem test_decode_corners :
    dec [0x00, 0xFF] = .ok (.instr (.ldi .a 0xFF), []) ∧ dec [0x3F] = .ok (.instr .lsp, []) ∧
    dec [0x76] = .ok (.instr (.mov .l .l), []) ∧ dec [0xB7] = .ok (.instr (.not .l), []) ∧
    dec [0xC4] = .ok (.instr (.jfr .z), []) ∧ dec [0xFC] = .ok (.instr (.jfs .cy), []) ∧
    dec [0xF7] = .ok (.instr (.notf .l), []) := by
  decide

/-- K4, K8, K10, K20, K23, K33: illegal bytes, and bytes that are missing. -/
theorem test_decode_refuses :
    dec [0x08] = .error (.noRow 0x08) ∧ dec [0x23] = .error (.noRow 0x23) ∧
    dec [0x25] = .error (.noRow 0x25) ∧ dec [0x7F] = .error (.noRow 0x7F) ∧
    dec [0xB8] = .error (.badRegister 0xB8) ∧ dec [0xF8] = .error (.badRegister 0xF8) ∧
    dec [] = .error .noOpcode ∧ dec [0x02] = .error .noImmediate := by
  decide

/-- Q8, Q9: the other layout. -/
theorem test_decode_other_layout :
    decode otherLayout [0x88] = .ok (.instr (.adc .a), []) ∧
    decode otherLayout [0x81] = .ok (.instr (.add .b), []) ∧
    decode otherLayout [0xC4] = .ok (.instr (.jfr .z), []) ∧
    decode otherLayout [0xCC] = .ok (.instr (.jfs .z), []) ∧
    decode otherLayout [0xB7] = .error (.badRegister 0xB7) ∧
    decode otherLayout [0xBF] = .error (.badRegister 0xBF) ∧
    decode otherLayout [0xE1] = .ok (.andFlagOnly .b, []) := by
  decide

/-- The host's two questions: the word's low byte is the first byte of the instruction. -/
theorem test_table_word : decodeTableWord 16 0x8005 = some (.ldi .h 0x80) ∧
    decodeTableWord 8 0x05 = some (.ldi .h 0) ∧ decodeTableWord 8 0x88 = some (.add .b) ∧
    decodeTableWord 8 0x08 = none := by
  decide

theorem test_fetch_word_ldi : (after (State.reset.withFetchWord 16 0x8005)).regs = rg (h := 0x80) := by
  decide

theorem test_fetch_word_hlt : (after (State.reset.withFetchWord 8 0xFF)).run = .halted := by decide

/-! ### One step -/

/-- V1. -/
theorem test_ldi_v1 : (after (boot [0x00, 0xAB] 16)).regs = rg (a := 0xAB) ∧
    (after (boot [0x00, 0xAB] 16)).pc = 2 := by
  decide

/-- V7: the immediate lies beyond program memory. -/
theorem test_ldi_v7 : (after (boot [0x02] 16)).fault = some (.memRange .rom .read 1) ∧
    (after (boot [0x02] 16)).pc = 1 ∧ (after (boot [0x02] 16)).regs = rg := by
  decide

/-- V10. -/
theorem test_mov_v10 : (after (boot [0x48] 16 (rg (b := 0x12)))).regs = rg (a := 0x12) (b := 0x12) ∧
    (after (boot [0x48] 16 (rg (b := 0x12)))).t = 0x12 := by
  decide

/-- V12: a move of a register to itself changes T only. -/
theorem test_mov_v12 : (after (boot [0x52] 16 (rg (c := 0x77)))).regs = rg (c := 0x77) ∧
    (after (boot [0x52] 16 (rg (c := 0x77)))).t = 0x77 := by
  decide

/-- V21: storing H at the address it is half of. -/
theorem test_stm_v21 : (after (boot [0x6F] 512 (rg (h := 1) (l := 0x20)))).ram.cells =
    [(0x0120, 0x01)] := by
  decide

/-- V24. -/
theorem test_stm_v24 :
    (after (boot [0x4F] 512 (rg (b := 0xEE) (h := 2)))).fault = some (.memRange .ram .write 0x0200) ∧
    (after (boot [0x4F] 512 (rg (b := 0xEE) (h := 2)))).ram.cells = [] := by
  decide

/-- V31: the pointer changes after the access. -/
theorem test_ldm_v31 :
    (after { boot [0x7D] 1024 (rg (h := 1) (l := 0x20)) with ram := ⟨1024, [(0x0120, 2)]⟩ }).regs =
      rg (h := 2) (l := 0x20) := by
  decide

/-- V33. -/
theorem test_ldm_v33 :
    (after (boot [0x78] 512 (rg (a := 0x11) (h := 2)))).fault = some (.memRange .ram .read 0x0200) ∧
    (after (boot [0x78] 512 (rg (a := 0x11) (h := 2)))).regs.a = 0x11 := by
  decide

/-- V40: the byte lands at the old SP. -/
theorem test_push_v40 :
    (after { boot [0x0F] 65536 (rg (b := 0x34)) with sp := 0x80FF }).ram.cells = [(0x80FF, 0x34)] ∧
    (after { boot [0x0F] 65536 (rg (b := 0x34)) with sp := 0x80FF }).sp = 0x80FE := by
  decide

/-- V42: a faulting push does not decrement SP. -/
theorem test_push_v42 : (after { boot [0x17] 16 with sp := 0x10 }).sp = 0x10 ∧
    (after { boot [0x17] 16 with sp := 0x10 }).fault = some (.memRange .ram .write 0x10) := by
  decide

/-- V50: the byte comes from the new SP. -/
theorem test_pop_v50 :
    (after { boot [0x3A] 16 with sp := 0x80FE, ram := ⟨65536, [(0x80FF, 0x34)]⟩ }).regs = rg (c := 0x34) ∧
    (after { boot [0x3A] 16 with sp := 0x80FE, ram := ⟨65536, [(0x80FF, 0x34)]⟩ }).sp = 0x80FF := by
  decide

/-- V52: a faulting pop has incremented SP. -/
theorem test_pop_v52 : (after { boot [0x38] 16 (rg (a := 0x11)) with sp := 0x0F }).sp = 0x10 ∧
    (after { boot [0x38] 16 (rg (a := 0x11)) with sp := 0x0F }).fault = some (.memRange .ram .read 0x10) ∧
    (after { boot [0x38] 16 (rg (a := 0x11)) with sp := 0x0F }).regs.a = 0x11 := by
  decide

/-- V60, S7. -/
theorem test_lsp_v60 : (after (boot [0x3F] 16 (rg (h := 0x80) (l := 0xFF)))).sp = 0x80FF := by decide

/-- V72. -/
theorem test_lpc_v72 : (after (boot [0x24] 16 (rg (h := 0x12) (l := 0x34)))).pc = 0x1234 ∧
    (after (boot [0x24] 16 (rg (h := 0x12) (l := 0x34)))).run = .running := by
  decide

/-- V83: with CY alone set, JFS CY jumps and JFS P falls through. -/
theorem test_jfs_v83 :
    (after (bootFlags [0xFC] (rg (l := 0x30)) false true false false)).pc = 0x30 ∧
    (after (bootFlags [0xEC] (rg (l := 0x30)) false true false false)).pc = 1 := by
  decide

/-- V84: with S alone set, JFR S falls through and JFR Z jumps. -/
theorem test_jfr_v84 :
    (after (bootFlags [0xD4] (rg (l := 0x30)) false false true false)).pc = 1 ∧
    (after (bootFlags [0xC4] (rg (l := 0x30)) false false true false)).pc = 0x30 := by
  decide

/-- V90. -/
theorem test_hlt_v90 : (after (boot [0xFF] 16)).run = .halted ∧ (after (boot [0xFF] 16)).pc = 1 := by
  decide

/-- V91: a further step changes nothing. -/
theorem test_hlt_v91 : after (after (boot [0xFF] 16)) = after (boot [0xFF] 16) := by decide

theorem test_add_v101 : seen (after (boot [0x88] 16 (rg (a := 0x80) (b := 0x90)))) =
    (0x10, 0x90, [false, true, false, true]) := by
  decide
theorem test_add_v106 :
    seen (after (bootFlags [0xB0] (rg (a := 0x01) (l := 0x02)) false true false false)) =
      (0x03, 0x02, [false, false, false, false]) := by
  decide
theorem test_adc_v109 :
    seen (after (bootFlags [0x91] (rg (a := 0x01) (c := 0x02)) false true false false)) =
      (0x04, 0x02, [false, false, false, true]) := by
  decide
theorem test_adc_v113 : seen (after (bootFlags [0x81] (rg (a := 0x80)) false true false false)) =
    (0x01, 0x80, [false, true, false, false]) := by
  decide
theorem test_sub_v116 : seen (after (boot [0x92] 16 (rg (a := 0x05) (c := 0x06)))) =
    (0xFF, 0x06, [false, true, true, false]) := by
  decide
theorem test_sub_v119 :
    seen (after (bootFlags [0xA2] (rg (a := 0x10) (e := 0x01)) false true false false)) =
      (0x0F, 0x01, [false, false, false, false]) := by
  decide
theorem test_sbb_v122 :
    seen (after (bootFlags [0x9B] (rg (a := 0x10) (d := 0x01)) false true false false)) =
      (0x0E, 0x01, [false, false, false, true]) := by
  decide
theorem test_sbb_v125 :
    seen (after (bootFlags [0x93] (rg (a := 0x00) (c := 0xFF)) false true false false)) =
      (0x00, 0xFF, [false, true, false, true]) := by
  decide
theorem test_and_v129 :
    seen (after (bootFlags [0xA4] (rg (a := 0xF0) (e := 0x3C)) false true false false)) =
      (0x30, 0x3C, [false, false, false, true]) := by
  decide
theorem test_and_v131 : seen (after (boot [0x94] 16 (rg (a := 0xFF) (c := 0x81)))) =
    (0x81, 0x81, [false, false, true, false]) := by
  decide
theorem test_or_v134 :
    seen (after (bootFlags [0xAD] (rg (a := 0xF0) (h := 0x0F)) false true false false)) =
      (0xFF, 0x0F, [false, false, true, false]) := by
  decide
theorem test_or_v136 : seen (after (boot [0x95] 16 (rg (a := 0x01) (c := 0x02)))) =
    (0x03, 0x02, [false, false, false, false]) := by
  decide
theorem test_xor_v138 : seen (after (boot [0xB6] 16 (rg (a := 0xAA) (l := 0x55)))) =
    (0xFF, 0x55, [false, false, true, false]) := by
  decide
theorem test_xor_v141 : seen (after (bootFlags [0x86] (rg (a := 0x9B)) false true false false)) =
    (0x00, 0x9B, [true, false, false, true]) := by
  decide
theorem test_not_v143 :
    seen (after (bootFlags [0x8F] (rg (a := 0x00) (b := 0x77)) false true false false)) =
      (0xFF, 0x77, [false, false, true, false]) := by
  decide
/-- Q4, Q5, Q6. -/
theorem test_not_q4_q5_q6 :
    seen (after { boot [0x87] 16 (rg (a := 0x55)) with
      cfg := { Config.specDefault with notWidth := .w16 } }) =
      (0xAA, 0x55, [false, true, true, true]) ∧
    seen (after { boot [0x97] 16 (rg (a := 0xFF) (c := 0x12)) with
      cfg := { Config.specDefault with notWidth := .w16 } }) =
      (0x00, 0x12, [false, true, false, true]) ∧
    seen (after { boot [0x8F] 16 (rg (b := 0x77)) with
      cfg := { Config.specDefault with notOperand := .temp } }) =
      (0x88, 0x77, [false, false, true, true]) := by
  decide
theorem test_addf_v146 : seen (after (boot [0xC8] 16 (rg (a := 0x80) (b := 0x90)))) =
    (0x80, 0x90, [false, true, false, true]) := by
  decide
theorem test_adcf_v148 :
    seen (after (bootFlags [0xD1] (rg (a := 0xFF)) false true false false)) =
      (0xFF, 0x00, [false, true, false, true]) := by
  decide
theorem test_subf_v149 : seen (after (boot [0xDA] 16 (rg (a := 0x05) (d := 0x06)))) =
    (0x05, 0x06, [false, true, true, false]) := by
  decide
theorem test_subf_v150 :
    seen (after (bootFlags [0xCA] (rg (a := 0x42) (b := 0x42)) false true false false)) =
      (0x42, 0x42, [true, false, false, true]) := by
  decide
theorem test_sbbf_v154 :
    seen (after (bootFlags [0xEB] (rg (a := 0x00) (h := 0xFF)) false true false false)) =
      (0x00, 0xFF, [false, true, false, true]) := by
  decide
theorem test_orf_v155 : seen (after (bootFlags [0xCD] (rg) false true false false)) =
    (0x00, 0x00, [true, false, false, true]) := by
  decide
theorem test_xorf_v157 : seen (after (boot [0xEE] 16 (rg (a := 0x81) (h := 0x01)))) =
    (0x81, 0x01, [false, false, true, true]) := by
  decide
theorem test_notf_v159 : seen (after (boot [0xCF] 16 (rg (a := 0xFF)))) =
    (0xFF, 0x00, [true, false, false, true]) := by
  decide

/-- R98: the flag-only AND of the other layout, byte `11 100 001`. -/
theorem test_and_flag_only :
    seen (after { boot [0xE1] 16 (rg (a := 0xF0) (b := 0x81)) with
      cfg := { Config.specDefault with decode := otherLayout } }) =
      (0xF0, 0x81, [false, false, true, true]) := by
  decide

/-- Q1: under SIGN_MODE = never S stays clear. -/
theorem test_sign_never_q1 :
    seen (after { boot [0xA8] 16 (rg (a := 0x7F) (h := 0x01)) with
      cfg := { Config.specDefault with signMode := .never } }) =
      (0x80, 0x01, [false, false, false, true]) := by
  decide

/-- P5 preloads data memory: the host's write, and the core's load of what it wrote. -/
theorem test_host_write_p5 :
    ∃ t, (boot [0x78] 64 (rg (l := 0x21))).hostWrite .ram 0x20 [0x0A, 0x14, 0x1E] = .next t ∧
      t.ram.cells = [(0x20, 0x0A), (0x21, 0x14), (0x22, 0x1E)] ∧ (after t).regs.a = 0x14 :=
  ⟨_, rfl, by decide, by decide⟩

/-- R280: a host write that exceeds the capacity is refused. -/
theorem test_host_write_refused :
    (match (boot [] 16).hostWrite .ram 15 [1, 2] with
      | .fault f => some f
      | .next _ => none
      | .refused _ => none) = some (.hostWriteOutOfRange .ram 15 2 16) := by
  decide

/-- R275: the sizes of F13, set by the host. -/
theorem test_size_memories_f13 :
    ∃ t, State.reset.sizeMemories 0 16 = .next t ∧
      (after t).fault = some (.memRange .rom .read 0) ∧ t.ram.capacity = 16 :=
  ⟨_, rfl, by decide, rfl⟩

/-- R275: the order of sizing and loading is free; V1's program and sizes, loaded first. -/
theorem test_load_then_size :
    ∃ t u, State.reset.loadProgram [0x00, 0xAB] = .next t ∧ t.sizeMemories 2 16 = .next u ∧
      u.rom.capacity = 2 ∧ (after u).regs = rg (a := 0xAB) :=
  ⟨_, _, rfl, rfl, rfl, by decide⟩

/-- R275: an image longer than the ROM_SIZE that is then fixed is refused. -/
theorem test_size_below_image_refused :
    (match (boot [0x00, 0xAB] 16).sizeMemories 1 16 with
      | .fault f => some f
      | .next _ => none
      | .refused _ => none) = some (.sizeTooSmall 1 16) := by
  decide

/-- F9, F10, F13: decode faults and a program memory of no byte. -/
theorem test_faults_f9_f10_f13 :
    (after (boot [0x7F] 16)).fault = some (.decode 0x7F) ∧ (after (boot [0x7F] 16)).pc = 1 ∧
    (after (boot [0xFB] 16)).fault = some (.decode 0xFB) ∧
    (after (boot [] 16)).fault = some (.memRange .rom .read 0) ∧ (after (boot [] 16)).pc = 0 := by
  decide

/-- Q10: under WRAP16 = fault the push has stored its byte. -/
theorem test_wrap_fault_q10 :
    let s := { boot [0x07] 4 (rg (a := 0x9D)) with
      cfg := { Config.specDefault with wrap16 := Wrap16.fault } }
    (after s).fault = some (.internal .overflow16) ∧ (after s).sp = 0 ∧
      (after s).ram.cells = [(0, 0x9D)] := by
  decide

/-- Q11: under WRAP16 = fault the increment of PC at 0xFFFF faults. -/
theorem test_wrap_fault_q11 :
    let s := { State.reset with
      pc := 0xFFFF, rom := ⟨65536, [(0, 0x9C), (0xFFFF, 0x01)]⟩
      cfg := { Config.specDefault with wrap16 := Wrap16.fault } }
    (after s).fault = some (.internal .overflow16) ∧ (after s).pc = 0xFFFF ∧ (after s).regs = rg := by
  decide

/-- V5: the same place under WRAP16 = wrap. -/
theorem test_wrap_v5 :
    let s := { State.reset with pc := 0xFFFF, rom := ⟨65536, [(0, 0x9C), (0xFFFF, 0x01)]⟩ }
    (after s).regs = rg (b := 0x9C) ∧ (after s).pc = 1 := by
  decide

/-! ### The hypotheses of the statements can be met

One theorem per statement with hypotheses: a state and operands that meet all of them together, clause by
clause, at the ends of their ranges. -/

/-- A Running machine under WRAP16 = fault. -/
def faulting (code : List Byte) (g : Regs := rg) : State :=
  { boot code 16 g with cfg := { Config.specDefault with wrap16 := Wrap16.fault } }

/-- A machine one below the capacities: SP and HL name the last byte of data memory. -/
def atTop (code : List Byte) : State := { boot code 16 (rg (b := 0x5A) (l := 15)) with sp := 15 }

/-- A machine at the capacities: SP and HL name the first byte beyond data memory. -/
def pastTop (code : List Byte) : State := { boot code 16 (rg (b := 0x5A) (l := 16)) with sp := 16 }

theorem witness_DecodeOfEncode :
    Config.specDefault.decode.wellFormed = true ∧ otherLayout.wellFormed = true ∧
    (Decoded.instr (.ldi .a 0)).wellFormed Config.specDefault.decode = true ∧
    (Decoded.instr (.notf .l)).wellFormed Config.specDefault.decode = true ∧
    (Decoded.andFlagOnly .l).wellFormed otherLayout = true := by
  decide

theorem witness_EncodeOfDecode :
    Config.specDefault.decode.wellFormed = true ∧ otherLayout.wellFormed = true ∧
    dec [0x06, 0xFF, 0xFF] = .ok (.instr (.ldi .l 0xFF), [0xFF]) ∧
    decode otherLayout [0xE6] = .ok (.andFlagOnly .l, []) := by
  decide

theorem witness_StepRunsDecodedInstruction :
    (let s := boot [0xFF] 16
     s.run = .running ∧ s.pc.toNat < s.rom.capacity ∧ mayMove16 s s.pc 0xFFFF#16 ∧
       (([0x00] : List Byte) = [] → (s.pc + 1).toNat < s.rom.capacity) ∧
       decode s.cfg.decode [s.rom.byteAt s.pc, s.rom.byteAt (s.pc + 1)] = .ok (.instr .hlt, [0x00])) ∧
    (let s := faulting [0x05, 0x80]
     s.run = .running ∧ s.pc.toNat < s.rom.capacity ∧ mayMove16 s s.pc 0xFFFF#16 ∧
       (([] : List Byte) = [] → (s.pc + 1).toNat < s.rom.capacity) ∧
       decode s.cfg.decode [s.rom.byteAt s.pc, s.rom.byteAt (s.pc + 1)] =
         .ok (.instr (.ldi .h 0x80), [])) := by
  unfold mayMove16; decide

theorem witness_StoppedCoreIgnoresSteps :
    (after (boot [0xFF] 16)).run ≠ .running ∧ (after (boot [0x7F] 16)).run ≠ .running := by
  decide

theorem witness_HaltedExactlyByOpcodeFF :
    (boot [0xFF] 16).run = .running ∧ step (boot [0xFF] 16) = .next (after (boot [0xFF] 16)) ∧
    (boot [0x88] 16).run = .running ∧ step (boot [0x88] 16) = .next (after (boot [0x88] 16)) := by
  refine ⟨rfl, rfl, rfl, rfl⟩

theorem witness_StepKeepsProgramAndParameters :
    step (atTop [0x0F]) = .next (after (atTop [0x0F])) := rfl

theorem witness_StepKeepsInv :
    (atTop [0x0F]).Inv ∧ step (atTop [0x0F]) = .next (after (atTop [0x0F])) ∧
    (after (boot [0x7F] 16)).Inv := by
  refine ⟨by unfold State.Inv; decide, rfl, by unfold State.Inv; exact ⟨rfl, rfl, rfl, rfl, rfl⟩⟩

theorem witness_HostMovesKeepInv :
    (boot [0x00, 0x00] 16).Inv ∧
    (∃ t, (boot [0x00, 0x00] 16).loadProgram [0x88, 0xFF] = .next t) ∧
    (∃ t, (boot [0x00, 0x00] 16).sizeMemories 65536 0 = .next t) ∧
    ∃ t, (boot [0x00, 0x00] 16).hostWrite .ram 15 [0x5A] = .next t :=
  ⟨by unfold State.Inv; decide, ⟨_, rfl⟩, ⟨_, rfl⟩, _, rfl⟩

theorem witness_OnlyTheDestinationRegisterChanges :
    (∃ t, exec (.mov .b .a) State.reset = .next t) ∧ destination (.mov .b .a) ≠ some .a :=
  ⟨⟨_, rfl⟩, by decide⟩

theorem witness_FlagsWrittenByArithmeticOnly :
    (∃ t, exec (.subf .b) State.reset = .next t) ∧ (Instr.subf .b).alu? = some (.flagOnly, .sub, .b) ∧
    (∃ t, exec (.ldm .b) State.reset = .next t) ∧ (Instr.ldm .b).alu? = none :=
  ⟨⟨_, rfl⟩, rfl, ⟨_, rfl⟩, rfl⟩

theorem witness_TempWrittenByMovAndArithmeticOnly :
    (∃ t, exec (.add .b) State.reset = .next t) ∧
      (Instr.add .b).alu? = some (.toAccumulator, .add, .b) ∧
    (∃ t, exec (.mov .b .a) State.reset = .next t) ∧
    (∃ t, exec (.push .b) State.reset = .next t) ∧ (Instr.push .b).alu? = none ∧
      ∀ dst src, Instr.push .b ≠ .mov dst src :=
  ⟨⟨_, rfl⟩, rfl, ⟨_, rfl⟩, ⟨_, rfl⟩, rfl, fun _ _ h => by cases h⟩

theorem witness_StackPointerWrittenByStackOnly :
    (∃ t, exec (.ldm .b) State.reset = .next t) ∧ Instr.ldm .b ≠ .lsp ∧
      (∀ r, Instr.ldm .b ≠ .push r) ∧ ∀ r, Instr.ldm .b ≠ .pop r :=
  ⟨⟨_, rfl⟩, by decide, fun _ h => (by cases h), fun _ h => (by cases h)⟩

theorem witness_MemoryChangesOnlyWhereStored :
    (∃ t, exec (.push .b) (atTop []) = .next t) ∧
      storeAddress (.push .b) (atTop []) = some 15 ∧ storeAddress (.push .b) (atTop []) ≠ some 14 :=
  ⟨⟨_, rfl⟩, by decide, by decide⟩

theorem witness_LdiLoadsImmediate :
    mayMove16 { State.reset with pc := 0xFFFF } 0xFFFF 0xFFFF#16 ∧
    mayMove16 { faulting [] with pc := 0xFFFE } 0xFFFE 0xFFFF#16 := by
  unfold mayMove16; decide

theorem witness_LdiStepAdvancesPcByTwo :
    (let s := boot [0x06, 0x16] 16
     s.run = .running ∧ s.cfg = Config.specDefault ∧ s.pc.toNat < s.rom.capacity ∧
       (s.pc + 1).toNat < s.rom.capacity ∧ s.rom.byteAt s.pc = specRegCode .l) ∧
    (let s := { State.reset with pc := 0xFFFF, rom := ⟨65536, [(0, 0x9C), (0xFFFF, 0x01)]⟩ }
     s.run = .running ∧ s.cfg = Config.specDefault ∧ s.pc.toNat < s.rom.capacity ∧
       (s.pc + 1).toNat < s.rom.capacity ∧ s.rom.byteAt s.pc = specRegCode .b) := by
  decide

theorem witness_StmStoresAtHL : (atTop []).hl.toNat < (atTop []).ram.capacity := by decide

theorem witness_LdmLoadsFromHL :
    State.reset.hl.toNat < State.reset.ram.capacity ∧ (atTop []).hl.toNat < (atTop []).ram.capacity := by
  decide

theorem witness_PushWritesThenDecrements :
    (State.reset.sp.toNat < State.reset.ram.capacity ∧ mayMove16 State.reset State.reset.sp 0x0000#16) ∧
    ({ faulting [] with sp := 15 }.sp.toNat < (faulting []).ram.capacity ∧
      mayMove16 { faulting [] with sp := 15 } 15 0x0000#16) := by
  unfold mayMove16; decide

theorem witness_PopIncrementsThenReads :
    (mayMove16 { boot [] 16 with sp := 0xFFFF } 0xFFFF 0xFFFF#16 ∧
      ((0xFFFF : Addr) + 1).toNat < (boot [] 16).ram.capacity) ∧
    (mayMove16 { faulting [] with sp := 14 } 14 0xFFFF#16 ∧
      ((14 : Addr) + 1).toNat < (faulting []).ram.capacity) := by
  unfold mayMove16; decide

theorem witness_PushThenPopCopies :
    (State.reset.sp.toNat < State.reset.ram.capacity ∧ mayMove16 State.reset State.reset.sp 0x0000#16) ∧
    ((atTop []).sp.toNat < (atTop []).ram.capacity ∧ mayMove16 (atTop []) (atTop []).sp 0x0000#16) := by
  unfold mayMove16; decide

theorem witness_FlagOnlyAgreesWithAccumulatorForm :
    flagInstr .sub .d = .instr (.subf .d) ∧ flagInstr .not .l = .instr (.notf .l) := by
  decide

theorem witness_FlagOnlyAndUnderOtherLayout :
    let s := { boot [0xE6] 16 with cfg := { Config.specDefault with decode := otherLayout } }
    s.run = .running ∧ s.pc.toNat < s.rom.capacity ∧
      s.cfg = { Config.specDefault with
        decode := { Config.specDefault.decode with aluLayout := .opSrcRegCtl } } ∧
      Reg.l ≠ .e ∧ s.rom.byteAt s.pc = 0xE0 + specRegCode .l := by
  decide

theorem witness_IntermediateRanges : Config.specDefault.notWidth = .w8 := rfl

theorem witness_ZeroFlagIsOfTheIntermediate :
    Config.specDefault.notWidth = .w8 ∧ Config.specDefault.notOperand = .acc := ⟨rfl, rfl⟩

theorem witness_SignFlagByMode :
    Config.specDefault.signMode = .bit7 ∧
    (let s := { boot [0xA8] 16 with cfg := { Config.specDefault with signMode := .never } }
     s.cfg.signMode = .never ∧ s.flags.s = false ∧ ∃ t, step s = .next t) :=
  ⟨rfl, rfl, rfl, _, rfl⟩

theorem witness_MemoryAccess :
    (1 : Addr).toNat < (boot [0x06, 0x16] 16).rom.capacity ∧
    (boot [0x06, 0x16] 16).rom.capacity ≤ (2 : Addr).toNat ∧
    (15 : Addr).toNat < (boot [] 16).ram.capacity ∧ (boot [] 16).ram.capacity ≤ (16 : Addr).toNat ∧
    (boot [] 0).ram.capacity ≤ (0 : Addr).toNat := by
  decide

theorem witness_PortRequestsExplainMemory :
    step (atTop [0x0F]) = .next (after (atTop [0x0F])) ∧
    .dataWrite 15 0x5A ∈ portRequests (atTop [0x0F]) ∧ (15 : Addr).toNat < (atTop [0x0F]).ram.capacity ∧
    (∀ v, .dataWrite 14 v ∉ portRequests (atTop [0x0F])) ∧
    portRequests (boot [0x02, 0x7F] 16) = [.programRead 0, .programRead 1] :=
  ⟨rfl, by decide, by decide, by decide, by decide⟩

theorem witness_RangeFaultIffRequestOutOfRange :
    (atTop [0x0F]).Inv ∧ (atTop [0x0F]).run = .running ∧ (∃ t, step (atTop [0x0F]) = .next t) ∧
    (pastTop [0x0F]).Inv ∧ (pastTop [0x0F]).run = .running ∧ (∃ t, step (pastTop [0x0F]) = .next t) ∧
    (∃ q ∈ portRequests (pastTop [0x0F]), q.inRange (pastTop [0x0F]) = false) :=
  ⟨by unfold State.Inv; decide, rfl, ⟨_, rfl⟩, by unfold State.Inv; decide, rfl, ⟨_, rfl⟩, by decide⟩

theorem witness_OpcodeFetchRangeFault :
    (boot [] 16).run = .running ∧ (boot [] 16).rom.capacity ≤ (boot [] 16).pc.toNat := by
  decide

theorem witness_IllegalOpcodeFault :
    (let s := boot [0xFE] 16
     s.run = .running ∧ s.cfg = Config.specDefault ∧ s.pc.toNat < s.rom.capacity ∧
       s.rom.byteAt s.pc ∈ illegalOpcodes) ∧
    (let s := boot [0x06, 0xFE] 16
     s.run = .running ∧ s.cfg = Config.specDefault ∧ s.pc.toNat < s.rom.capacity ∧
       s.rom.byteAt s.pc ∉ illegalOpcodes ∧ s.fault = none) := by
  decide

theorem witness_ImmediateFetchRangeFault :
    let s := boot [0x06] 16
    s.run = .running ∧ s.cfg = Config.specDefault ∧ s.pc.toNat < s.rom.capacity ∧
      s.rom.byteAt s.pc ≤ 0x06 ∧ s.rom.capacity ≤ (s.pc + 1).toNat := by
  decide

theorem witness_DataRangeFaults :
    (pastTop []).ram.capacity ≤ (pastTop []).hl.toNat ∧
    (pastTop []).ram.capacity ≤ (pastTop []).sp.toNat ∧
    mayMove16 (atTop []) (atTop []).sp 0xFFFF#16 ∧
    (atTop []).ram.capacity ≤ ((atTop []).sp + 1).toNat := by
  unfold mayMove16; decide

theorem witness_OverflowFaults :
    (faulting []).cfg.wrap16 = .fault ∧
    (let s := { faulting [] with pc := 0xFFFF, rom := ⟨65536, []⟩ }
     s.cfg.wrap16 = .fault ∧ s.run = .running ∧ s.pc = 0xFFFF#16 ∧ s.pc.toNat < s.rom.capacity) ∧
    { faulting [] with sp := 0xFFFF }.sp = 0xFFFF#16 ∧
    ((faulting []).sp = 0x0000#16 ∧ (faulting []).sp.toNat < (faulting []).ram.capacity) := by
  decide

theorem witness_InstructionsThatCanFault :
    (atTop []).run = .running ∧ (atTop []).cfg.wrap16 = .wrap ∧
      (∃ t, exec (.pop .b) (atTop []) = .next t) ∧
      (atTop []).ram.capacity ≤ ((atTop []).sp + 1).toNat ∧
    (pastTop []).run = .running ∧ (pastTop []).cfg.wrap16 = .wrap ∧
      (∃ t, exec (.stm .b) (pastTop []) = .next t) ∧
      (pastTop []).ram.capacity ≤ (pastTop []).hl.toNat ∧
      (pastTop []).ram.capacity ≤ (pastTop []).sp.toNat :=
  ⟨rfl, rfl, ⟨_, rfl⟩, by decide, rfl, rfl, ⟨_, rfl⟩, by decide, by decide⟩

theorem witness_FaultsArePrecise :
    (atTop [0x39]).run = .running ∧ (atTop [0x39]).cfg.wrap16 = .wrap ∧
    step (atTop [0x39]) = .next (after (atTop [0x39])) ∧ (after (atTop [0x39])).run = .faulted := by
  refine ⟨rfl, rfl, rfl, rfl⟩

theorem witness_ResetLeavesStoppedStates :
    0 < (boot [0xFF] 16).rom.capacity ∧ (boot [0xFF] 16).rom.byteAt 0 = 0xFF := by
  decide

theorem witness_LoadProgramPlacesImage :
    (boot [0x00, 0x00] 16).rom.capacity ≤ 65536 ∧
    ([0x88, 0xFF] : List Byte).length ≤ (boot [0x00, 0x00] 16).rom.capacity ∧
    (boot [0x00, 0x00] 16).rom.capacity < ([0x88, 0xFF, 0xFF] : List Byte).length ∧
    14 + ([0x88, 0xFF] : List Byte).length ≤ ((boot [] 16).memory .ram).capacity ∧
    ((boot [] 16).memory .ram).capacity < 15 + ([0x88, 0xFF] : List Byte).length ∧
    (15 : Addr).toNat < ((boot [] 16).memory .ram).capacity ∧ MemKind.rom ≠ .ram := by
  decide

/-- The same statement's last clause: both sizes changed, the image and the written bytes at the ends. -/
theorem witness_LoadProgramPlacesImage_order :
    (boot [0x00, 0xAB] 16).rom.capacity = 2 ∧ (boot [0x00, 0xAB] 16).ram.capacity = 16 ∧
    ∃ sized, (boot [0x00, 0xAB] 16).sizeMemories 65536 8 = .next sized ∧
      ([0x88, 0xFF] : List Byte).length ≤ (boot [0x00, 0xAB] 16).rom.capacity ∧
      ([0x88, 0xFF] : List Byte).length ≤ 65536 ∧
      7 + ([0x5A] : List Byte).length ≤ ((boot [0x00, 0xAB] 16).memory .ram).capacity ∧
      7 + ([0x5A] : List Byte).length ≤ (sized.memory .ram).capacity :=
  ⟨rfl, rfl, _, rfl, by decide, by decide, by decide, by decide⟩

theorem witness_ProgramCounterMoves :
    (boot [0x05, 0x80] 16).run = .running ∧
    step (boot [0x05, 0x80] 16) = .next (after (boot [0x05, 0x80] 16)) ∧
    (after (boot [0x05, 0x80] 16)).run ≠ .faulted ∧
    (boot [0x24] 16).run = .running ∧ step (boot [0x24] 16) = .next (after (boot [0x24] 16)) ∧
    (after (boot [0x24] 16)).run ≠ .faulted :=
  ⟨rfl, rfl, by decide, rfl, rfl, by decide⟩

end Sys2Proof.Tests
end

section
/-! What a meaning can answer, said once as a relation, and from it the statements about the core's state
(10_state.md): the invariant, the flags, T, the ends of the 16-bit range, and PC. -/

namespace Sys2Proof.Machine

/-! ### A byte stored to data memory -/

/-- The machine with one byte of data memory written. -/
def State.store (s : State) (a : Addr) (v : Byte) : State :=
  { s with ram := { s.ram with cells := Memory.write s.ram.cells a.toNat v } }

theorem State.ramWrite_of_lt (s : State) (a : Addr) (v : Byte) (h : a.toNat < s.ram.capacity) :
    s.ramWrite a v = .ok (s.store a v) := by
  rw [State.ramWrite_eq, if_pos h]; rfl

theorem State.pushed_eq_store (s : State) (src : Reg) :
    s.pushed src = s.store s.sp (s.reg src) := rfl

/-! ### What a meaning can answer -/

/-- An arithmetic/logic instruction always completes, as R209 says for its class. -/
theorem exec_alu_cases {i : Instr} {k : AluClass} {o : AluOp} {r : Reg} {s t : State}
    (ha : i.alu? = some (k, o, r)) (he : exec i s = .next t) :
    (k = .toAccumulator ∧ t = s.afterAlu o r) ∨ (k = .flagOnly ∧ t = s.afterAluFlags o r) := by
  obtain ⟨hk, hi⟩ | ⟨hk, hi⟩ := alu_form i k o r ha
  · rw [hi, exec_accInstr] at he
    cases he
    exact .inl ⟨hk, rfl⟩
  · rw [exec_flagInstr o r i s hi] at he
    cases he
    exact .inr ⟨hk, rfl⟩

/-- Every way a meaning can end: one constructor for each instruction outside the ALU and each of its
branches, with the branch's condition, and one for each class of arithmetic/logic instruction. -/
inductive ExecResult (s : State) : Instr → State → Prop
  | toAccumulator {i : Instr} {o : AluOp} {r : Reg} (ha : i.alu? = some (.toAccumulator, o, r)) :
      ExecResult s i (s.afterAlu o r)
  | flagOnly {i : Instr} {o : AluOp} {r : Reg} (ha : i.alu? = some (.flagOnly, o, r)) :
      ExecResult s i (s.afterAluFlags o r)
  | ldi (dst : Reg) (n : Byte) (hw : ¬ (s.cfg.wrap16 = .fault ∧ s.pc = 0xFFFF#16)) :
      ExecResult s (.ldi dst n) ((s.setPc (s.pc + 1)).setReg dst n)
  | ldiOverflow (dst : Reg) (n : Byte) (hw : s.cfg.wrap16 = .fault ∧ s.pc = 0xFFFF#16) :
      ExecResult s (.ldi dst n) (s.raise (.internal .overflow16))
  | push (src : Reg) (ha : s.sp.toNat < s.ram.capacity)
      (hw : ¬ (s.cfg.wrap16 = .fault ∧ s.sp = 0x0000#16)) :
      ExecResult s (.push src) ((s.store s.sp (s.reg src)).setSp (s.sp - 1))
  | pushOverflow (src : Reg) (ha : s.sp.toNat < s.ram.capacity)
      (hw : s.cfg.wrap16 = .fault ∧ s.sp = 0x0000#16) :
      ExecResult s (.push src) ((s.store s.sp (s.reg src)).raise (.internal .overflow16))
  | pushRange (src : Reg) (ha : ¬ s.sp.toNat < s.ram.capacity) :
      ExecResult s (.push src) (s.raise (.memRange .ram .write s.sp))
  | pop (dst : Reg) (hw : ¬ (s.cfg.wrap16 = .fault ∧ s.sp = 0xFFFF#16))
      (ha : (s.sp + 1).toNat < s.ram.capacity) :
      ExecResult s (.pop dst) ((s.setSp (s.sp + 1)).setReg dst (s.ram.byteAt (s.sp + 1)))
  | popOverflow (dst : Reg) (hw : s.cfg.wrap16 = .fault ∧ s.sp = 0xFFFF#16) :
      ExecResult s (.pop dst) (s.raise (.internal .overflow16))
  | popRange (dst : Reg) (hw : ¬ (s.cfg.wrap16 = .fault ∧ s.sp = 0xFFFF#16))
      (ha : ¬ (s.sp + 1).toNat < s.ram.capacity) :
      ExecResult s (.pop dst) ((s.setSp (s.sp + 1)).raise (.memRange .ram .read (s.sp + 1)))
  | lsp : ExecResult s .lsp (s.setSp s.hl)
  | lpc : ExecResult s .lpc (s.setPc s.hl)
  | mov (dst src : Reg) : ExecResult s (.mov dst src) ((s.setT (s.reg src)).setReg dst (s.reg src))
  | stm (src : Reg) (ha : s.hl.toNat < s.ram.capacity) :
      ExecResult s (.stm src) (s.store s.hl (s.reg src))
  | stmRange (src : Reg) (ha : ¬ s.hl.toNat < s.ram.capacity) :
      ExecResult s (.stm src) (s.raise (.memRange .ram .write s.hl))
  | ldm (dst : Reg) (ha : s.hl.toNat < s.ram.capacity) :
      ExecResult s (.ldm dst) (s.setReg dst (s.ram.byteAt s.hl))
  | ldmRange (dst : Reg) (ha : ¬ s.hl.toNat < s.ram.capacity) :
      ExecResult s (.ldm dst) (s.raise (.memRange .ram .read s.hl))
  | jfsTaken (f : Flag) (hf : s.flag f = true) : ExecResult s (.jfs f) (s.setPc s.hl)
  | jfsSkipped (f : Flag) (hf : ¬ s.flag f = true) : ExecResult s (.jfs f) s
  | jfrTaken (f : Flag) (hf : ¬ s.flag f = true) : ExecResult s (.jfr f) (s.setPc s.hl)
  | jfrSkipped (f : Flag) (hf : s.flag f = true) : ExecResult s (.jfr f) s
  | hlt : ExecResult s .hlt { s with run := .halted }

/-- A meaning ends in no other way. -/
theorem execResult_of_exec {i : Instr} {s t : State} (he : exec i s = .next t) :
    ExecResult s i t := by
  have halu {k : AluClass} {o : AluOp} {r : Reg} (ha : i.alu? = some (k, o, r)) :
      ExecResult s i t := by
    obtain ⟨rfl, rfl⟩ | ⟨rfl, rfl⟩ := exec_alu_cases ha he
    · exact .toAccumulator ha
    · exact .flagOnly ha
  cases i with
  | ldi dst n =>
    rw [exec_ldi] at he
    cases he
    split
    next hw => exact .ldiOverflow dst n hw
    next hw => exact .ldi dst n hw
  | push src =>
    rw [exec_push] at he
    cases he
    split
    next ha =>
      split
      next hw => exact .pushOverflow src ha hw
      next hw => exact .push src ha hw
    next ha => exact .pushRange src ha
  | pop dst =>
    rw [exec_pop] at he
    cases he
    split
    next hw => exact .popOverflow dst hw
    next hw =>
      split
      next ha => exact .pop dst hw ha
      next ha => exact .popRange dst hw ha
  | lsp => cases he; exact .lsp
  | lpc => cases he; exact .lpc
  | mov dst src => cases he; exact .mov dst src
  | stm src =>
    rw [exec_stm] at he
    cases he
    split
    next ha => exact .stm src ha
    next ha => exact .stmRange src ha
  | ldm dst =>
    rw [exec_ldm] at he
    cases he
    split
    next ha => exact .ldm dst ha
    next ha => exact .ldmRange dst ha
  | jfs f =>
    rw [exec_jfs] at he
    cases he
    split
    next hf => exact .jfsTaken f hf
    next hf => exact .jfsSkipped f hf
  | jfr f =>
    rw [exec_jfr] at he
    cases he
    split
    next hf => exact .jfrSkipped f hf
    next hf => exact .jfrTaken f hf
  | hlt => cases he; exact .hlt
  | _ => exact halu rfl

/-! ### The invariant (R41, R32, R56, R8)

`State.Inv` reads no register, SP, PC, T or flag, so an update of those keeps it as it stands. -/

theorem State.Inv.setReg {s : State} (h : s.Inv) (r : Reg) (v : Byte) : (s.setReg r v).Inv := h

theorem State.Inv.setPc {s : State} (h : s.Inv) (w : Addr) : (s.setPc w).Inv := h

theorem State.Inv.setSp {s : State} (h : s.Inv) (w : Addr) : (s.setSp w).Inv := h

theorem State.Inv.setT {s : State} (h : s.Inv) (v : Byte) : (s.setT v).Inv := h

/-- Fault entry records the fault as it makes the core Faulted, where `OP` is free. -/
theorem State.Inv.raise {s : State} (h : s.Inv) (f : FaultRecord) : (s.raise f).Inv := by
  obtain ⟨hrom, hram, hcfg, -, -⟩ := h
  exact ⟨hrom, hram, hcfg, rfl, rfl⟩

/-- A store in range keeps data memory canonical. -/
theorem State.Inv.store {s : State} (h : s.Inv) {a : Addr} (v : Byte)
    (ha : a.toNat < s.ram.capacity) : (s.store a v).Inv := by
  obtain ⟨hrom, hram, hcfg, hfault, hop⟩ := h
  obtain ⟨-, -, -, hwf⟩ := MemoryBus.write_spec _ _ _ _ (MemoryBus.write_of_lt s.ram a v ha)
  exact ⟨hrom, hwf hram, hcfg, hfault, hop⟩

theorem State.Inv.setOperation_noOp {s : State} (h : s.Inv) : (s.setOperation .noOp).Inv := by
  obtain ⟨hrom, hram, hcfg, hfault, -⟩ := h
  exact ⟨hrom, hram, hcfg, hfault, by simp [State.opOk]⟩

theorem State.Inv.afterAlu {s : State} (h : s.Inv) (o : AluOp) (r : Reg) : (s.afterAlu o r).Inv :=
  h.setOperation_noOp

theorem State.Inv.afterAluFlags {s : State} (h : s.Inv) (o : AluOp) (r : Reg) :
    (s.afterAluFlags o r).Inv :=
  h.setOperation_noOp

/-- A Running core that halts has an empty fault record and no pending operation. -/
theorem State.Inv.halt {s : State} (h : s.Inv) (hr : s.run = .running) :
    State.Inv { s with run := .halted } := by
  obtain ⟨hrom, hram, hcfg, hfault, hop⟩ := h
  refine ⟨hrom, hram, hcfg, ?_, ?_⟩
  · simpa [State.faultRecordOk, hr] using hfault
  · simpa [State.opOk, hr] using hop

/-- Every meaning keeps the invariant of a Running core; only HLT needs that it is Running. -/
theorem exec_keeps_inv {i : Instr} {s t : State} (h : s.Inv) (hr : s.run = .running)
    (he : exec i s = .next t) : t.Inv := by
  cases execResult_of_exec he with
  | toAccumulator => exact h.afterAlu _ _
  | flagOnly => exact h.afterAluFlags _ _
  | ldi => exact (h.setPc _).setReg _ _
  | push src ha => exact (h.store _ ha).setSp _
  | pushOverflow src ha => exact (h.store _ ha).raise _
  | pop => exact (h.setSp _).setReg _ _
  | popRange => exact (h.setSp _).raise _
  | lsp => exact h.setSp _
  | mov => exact (h.setT _).setReg _ _
  | stm src ha => exact h.store _ ha
  | ldm => exact h.setReg _ _
  | lpc | jfsTaken | jfrTaken => exact h.setPc _
  | jfsSkipped | jfrSkipped => exact h
  | hlt => exact h.halt hr
  | ldiOverflow | pushRange | popOverflow | stmRange | ldmRange => exact h.raise _

/-- A fetch that fails keeps the invariant. -/
theorem fetch_error_keeps_inv {s t : State} (h : s.Inv) (hf : s.fetch = .error t) : t.Inv := by
  obtain ⟨f, rfl | rfl⟩ := State.fetch_error s t hf
  · exact h.raise f
  · exact (h.setPc _).raise f

/-- A fetch that succeeds moves PC past the opcode and nothing else. -/
theorem State.fetch_ok_state {s s1 : State} {d : Decoded} (hf : s.fetch = .ok (d, s1)) :
    s1 = s.setPc (s.pc + 1) := by
  obtain ⟨-, -, hs1, -⟩ := State.fetch_ok s s1 d hf
  exact hs1

/-- Settles O14: a step is a fetch, which moves PC or faults, and then a meaning, and each keeps the
invariant. -/
theorem stepKeepsInv : Obligations.StepKeepsInv := by
  intro s t h hstep
  obtain ⟨-, rfl⟩ | ⟨-, hf⟩ | ⟨hr, i, s1, hf, he⟩ | ⟨-, r, s1, hf, rfl⟩ := step_cases s t hstep
  · exact h
  · exact fetch_error_keeps_inv h hf
  · obtain rfl := State.fetch_ok_state hf
    exact exec_keeps_inv (h.setPc (s.pc + 1)) hr he
  · obtain rfl := State.fetch_ok_state hf
    exact (h.setPc _).afterAluFlags .and r

/-- Settles O15: empty memories of 65536 bytes, the default parameters, Running with nothing pending. -/
theorem resetHasInv : Obligations.ResetHasInv :=
  ⟨rfl, rfl, Config.specDefault_wellFormed, rfl, rfl⟩

/-! ### The flags (R29) and T (R31) -/

theorem exec_flags_of_alu {i : Instr} {k : AluClass} {o : AluOp} {r : Reg} {s t : State}
    (ha : i.alu? = some (k, o, r)) (he : exec i s = .next t) :
    t.flags = (alu s.cfg o (s.reg .a) (s.reg r) s.flags.cy).2 := by
  obtain ⟨-, rfl⟩ | ⟨-, rfl⟩ := exec_alu_cases ha he <;> rfl

theorem exec_flags_of_not_alu {i : Instr} {s t : State} (hi : i.alu? = none)
    (he : exec i s = .next t) : t.flags = s.flags := by
  cases execResult_of_exec he with
  | toAccumulator ha | flagOnly ha => exact absurd (hi.symm.trans ha) (by simp)
  | _ => rfl

/-- Settles O18, by whether the instruction is an arithmetic/logic one. -/
theorem flagsWrittenByArithmeticOnly : Obligations.FlagsWrittenByArithmeticOnly := by
  intro i s t he
  cases ha : i.alu? with
  | some p => exact exec_flags_of_alu ha he
  | none => exact exec_flags_of_not_alu ha he

theorem exec_temp_of_alu {i : Instr} {k : AluClass} {o : AluOp} {r : Reg} {s t : State}
    (ha : i.alu? = some (k, o, r)) (he : exec i s = .next t) : t.t = s.reg r := by
  obtain ⟨-, rfl⟩ | ⟨-, rfl⟩ := exec_alu_cases ha he <;> rfl

theorem exec_temp_of_mov {dst src : Reg} {s t : State} (he : exec (.mov dst src) s = .next t) :
    t.t = s.reg src := by
  rw [exec_mov] at he
  cases he
  rfl

theorem exec_temp_of_other {i : Instr} {s t : State} (hi : i.alu? = none)
    (hmov : ∀ dst src, i ≠ .mov dst src) (he : exec i s = .next t) : t.t = s.t := by
  cases execResult_of_exec he with
  | toAccumulator ha | flagOnly ha => exact absurd (hi.symm.trans ha) (by simp)
  | mov dst src => exact absurd rfl (hmov dst src)
  | _ => rfl

/-- Settles O19, by the three kinds of instruction: arithmetic/logic, MOV, and the others. -/
theorem tempWrittenByMovAndArithmeticOnly : Obligations.TempWrittenByMovAndArithmeticOnly := by
  intro i s t he
  refine ⟨fun k o r ha => exec_temp_of_alu ha he, ?_, fun hi hmov => exec_temp_of_other hi hmov he⟩
  rintro dst src rfl
  exact exec_temp_of_mov he

/-! ### The ends of the 16-bit range (R27, R244) -/

/-- Fault entry changes nothing but `RUN`, `FAULT`, `OP` and the model's own counter (R246). -/
theorem State.raise_faultedFrom (s : State) (f : FaultRecord) : FaultedFrom f s (s.raise f) :=
  ⟨rfl, rfl, rfl, rfl, rfl, rfl, rfl, rfl, rfl, rfl⟩

theorem step_of_fetch_error {s t : State} (hr : s.run = .running) (hf : s.fetch = .error t) :
    step s = .next t := by
  rw [step_of_running s hr, stepRunning, hf]

/-- The opcode at 0xFFFF is read before the increment of PC overflows. -/
theorem State.fetch_of_overflow {s : State} (hw : s.cfg.wrap16 = .fault ∧ s.pc = 0xFFFF#16)
    (hpc : s.pc.toNat < s.rom.capacity) : s.fetch = .error (s.raise (.internal .overflow16)) := by
  rw [State.fetch_eq, if_pos hpc, if_pos hw]

theorem exec_ldi_of_overflow (dst : Reg) (n : Byte) {s : State}
    (hw : s.cfg.wrap16 = .fault ∧ s.pc = 0xFFFF#16) :
    exec (.ldi dst n) s = .next (s.raise (.internal .overflow16)) := by
  rw [exec_ldi, if_pos hw]

theorem exec_pop_of_overflow (dst : Reg) {s : State}
    (hw : s.cfg.wrap16 = .fault ∧ s.sp = 0xFFFF#16) :
    exec (.pop dst) s = .next (s.raise (.internal .overflow16)) := by
  rw [exec_pop, if_pos hw]

/-- PUSH stores its byte before the decrement of SP overflows. -/
theorem exec_push_of_overflow (src : Reg) {s : State}
    (hw : s.cfg.wrap16 = .fault ∧ s.sp = 0x0000#16) (ha : s.sp.toNat < s.ram.capacity) :
    exec (.push src) s = .next ((s.store s.sp (s.reg src)).raise (.internal .overflow16)) := by
  rw [exec_push, if_pos ha, if_pos hw, State.pushed_eq_store]

/-- Settles O54: at each end of the range the step or the meaning answers a fault entry, which for PUSH
starts from the state with the byte stored. -/
theorem overflowFaults : Obligations.OverflowFaults := by
  intro r n s hw
  refine ⟨fun hr hpc hin => ?fetch, fun hpc => ?ldi, fun hsp => ?pop, fun hsp hin => ?push⟩
  case fetch =>
    exact ⟨_, step_of_fetch_error hr (State.fetch_of_overflow ⟨hw, hpc⟩ hin), s.raise_faultedFrom _⟩
  case ldi => exact ⟨_, exec_ldi_of_overflow r n ⟨hw, hpc⟩, s.raise_faultedFrom _⟩
  case pop => exact ⟨_, exec_pop_of_overflow r ⟨hw, hsp⟩, s.raise_faultedFrom _⟩
  case push =>
    exact ⟨_, _, s.ramWrite_of_lt s.sp (s.reg r) hin, exec_push_of_overflow r ⟨hw, hsp⟩ hin,
      State.raise_faultedFrom _ _⟩

/-! ### PC (R26, R179) and the composite pointer (R24) -/

/-- A meaning leaves PC, or moves it past LDI's immediate, or to the composite pointer; also where it
faults. -/
theorem exec_pc {i : Instr} {s t : State} (he : exec i s = .next t) :
    t.pc = s.pc ∨ t.pc = s.pc + 1 ∨ t.pc = s.hl := by
  cases execResult_of_exec he with
  | ldi => exact .inr (.inl rfl)
  | lpc | jfsTaken | jfrTaken => exact .inr (.inr rfl)
  | _ => exact .inl rfl

theorem fetch_error_run {s t : State} (hf : s.fetch = .error t) : t.run = .faulted := by
  obtain ⟨f, rfl | rfl⟩ := State.fetch_error s t hf <;> rfl

/-- Settles O60: the fetch moves PC by one, and the meaning moves it again as `exec_pc` says. -/
theorem programCounterMoves : Obligations.ProgramCounterMoves := by
  intro s t hr hstep hnf
  obtain ⟨hs, -⟩ | ⟨-, hf⟩ | ⟨-, i, s1, hf, he⟩ | ⟨-, r, s1, hf, rfl⟩ := step_cases s t hstep
  · exact absurd hr hs
  · exact absurd (fetch_error_run hf) hnf
  · obtain rfl := State.fetch_ok_state hf
    obtain hpc | hpc | hpc := exec_pc he
    · exact .inl hpc
    · exact .inr (.inl (hpc.trans (BitVec.add_assoc s.pc 1 1)))
    · exact .inr (.inr hpc)
  · obtain rfl := State.fetch_ok_state hf
    exact .inl rfl

/-- The composite pointer of a register file, as a number. -/
theorem Regs.hl_toNat (g : Regs) : g.hl.toNat = g.h.toNat * 256 + g.l.toNat := by
  rw [Regs.hl, BitVec.toNat_append, ← Nat.shiftLeft_add_eq_or_of_lt g.l.isLt, Nat.shiftLeft_eq]

/-- Settles O2: the low byte fills the eight bits below H. -/
theorem compositePointerIsHL : Obligations.CompositePointerIsHL :=
  fun s => s.regs.hl_toNat

end Sys2Proof.Machine
end

section
/-! The two memories (20_memory.md): what an access answers, the host's moves, the requests of a step on the
two ports, and the statements of that family. -/

namespace Sys2Proof.Machine

/-! ### One access to a memory (R52 to R55) -/

theorem State.ramWrite_of_ge (s : State) (a : Addr) (v : Byte) (h : ¬ a.toNat < s.ram.capacity) :
    s.ramWrite a v = .error (s.raise (.memRange .ram .write a)) := by
  rw [State.ramWrite_eq, if_neg h]

theorem State.store_byteAt (s : State) (a b : Addr) (v : Byte) :
    (s.store a v).ram.byteAt b = if b = a then v else s.ram.byteAt b :=
  MemoryBus.byteAt_write s.ram a b v

/-- A store changes one byte of data memory and nothing else. -/
theorem State.store_onlyWrites (s : State) (a : Addr) (v : Byte) :
    OnlyWrites { ram := some a } s (s.store a v) where
  regs _ _ := rfl
  sp _ := rfl
  temp _ := rfl
  flags _ := rfl
  op _ := rfl
  run _ := rfl
  fault := rfl
  rom := rfl
  ramCapacity := rfl
  ramBytes b hb := by rw [State.store_byteAt, if_neg (fun hba => hb (congrArg some hba.symm))]
  cfg := rfl
  freeCount := rfl

/-- A read in range after a store gives the byte last written. -/
theorem State.ramRead_store (s : State) (a b : Addr) (v : Byte) (hb : b.toNat < s.ram.capacity) :
    (s.store a v).ramRead b = .ok (if b = a then v else s.ram.byteAt b) := by
  rw [State.ramRead_of_lt (s.store a v) b hb, State.store_byteAt]

/-- Settles O47, by the side of the capacity on which the address lies. -/
theorem memoryAccess : Obligations.MemoryAccess := by
  intro s a v
  refine ⟨s.romRead_of_lt a, fun h => ?romRange, fun h => ⟨s.ramRead_of_lt a h, ?store⟩,
    fun h => ⟨?readRange, ?writeRange⟩⟩
  case romRange => exact ⟨_, s.romRead_of_ge a (Nat.not_lt.mpr h), s.raise_faultedFrom _⟩
  case store =>
    exact ⟨s.store a v, s.ramWrite_of_lt a v h, s.store_onlyWrites a v, rfl,
      fun b => s.ramRead_store a b v⟩
  case readRange => exact ⟨_, s.ramRead_of_ge a (Nat.not_lt.mpr h), s.raise_faultedFrom _⟩
  case writeRange => exact ⟨_, s.ramWrite_of_ge a v (Nat.not_lt.mpr h), s.raise_faultedFrom _⟩

/-! ### What no step writes (R52, R68, R17) -/

theorem exec_keeps_program {i : Instr} {s t : State} (he : exec i s = .next t) :
    t.rom = s.rom ∧ t.ram.capacity = s.ram.capacity ∧ t.cfg = s.cfg := by
  cases execResult_of_exec he <;> exact ⟨rfl, rfl, rfl⟩

/-- Settles O13: the fetch changes PC or faults, and a meaning changes the contents of data memory at most. -/
theorem stepKeepsProgramAndParameters : Obligations.StepKeepsProgramAndParameters := by
  intro s t hstep
  obtain ⟨-, rfl⟩ | ⟨-, hf⟩ | ⟨-, i, s1, hf, he⟩ | ⟨-, r, s1, hf, rfl⟩ := step_cases s t hstep
  · exact ⟨rfl, rfl, rfl⟩
  · obtain ⟨f, rfl | rfl⟩ := State.fetch_error s t hf <;> exact ⟨rfl, rfl, rfl⟩
  · obtain rfl := State.fetch_ok_state hf
    exact exec_keeps_program (s := s.setPc (s.pc + 1)) he
  · obtain rfl := State.fetch_ok_state hf
    exact ⟨rfl, rfl, rfl⟩

/-! ### The data port of a meaning (R57, R62) -/

/-- The core has recorded a range fault of a memory. -/
def State.RangeFaulted (s : State) : Prop := ∃ m k a, s.fault = some (.memRange m k a)

theorem State.raise_rangeFaulted (s : State) (m : MemKind) (k : AccessKind) (a : Addr) :
    (s.raise (.memRange m k a)).RangeFaulted :=
  ⟨m, k, a, rfl⟩

theorem State.raise_internal_not_rangeFaulted (s : State) (w : InternalWhy) :
    ¬ (s.raise (.internal w)).RangeFaulted := by
  rintro ⟨m, k, a, h⟩
  cases h

theorem State.raise_decode_not_rangeFaulted (s : State) (op : Byte) :
    ¬ (s.raise (.decode op)).RangeFaulted := by
  rintro ⟨m, k, a, h⟩
  cases h

theorem State.not_rangeFaulted_of_fault_eq {s t : State} (ht : t.fault = s.fault)
    (hs : s.fault = none) : ¬ t.RangeFaulted := by
  rintro ⟨m, k, a, h⟩
  rw [ht, hs] at h
  cases h

/-- Whether a request is one on the data port. -/
def PortRequest.onDataPort : PortRequest → Bool
  | .programRead _ => false
  | .dataRead _ => true
  | .dataWrite _ _ => true

/-- How data memory answers the data requests `qs` of a meaning that takes `s` to `t`: there is at most one,
only a write in range changes the contents, and one out of range ends in the range fault. -/
inductive DataPortResult (s t : State) : List PortRequest → Prop
  | idle (hram : t.ram = s.ram) (hf : s.fault = none → ¬ t.RangeFaulted) : DataPortResult s t []
  | read (a : Addr) (ha : a.toNat < s.ram.capacity) (hram : t.ram = s.ram)
      (hf : s.fault = none → ¬ t.RangeFaulted) : DataPortResult s t [.dataRead a]
  | write (a : Addr) (v : Byte) (ha : a.toNat < s.ram.capacity) (hram : t.ram = (s.store a v).ram)
      (hf : s.fault = none → ¬ t.RangeFaulted) : DataPortResult s t [.dataWrite a v]
  | outOfRange (q : PortRequest) (hq : q.inRange s = false) (hram : t.ram = s.ram)
      (hf : t.RangeFaulted) : DataPortResult s t [q]

theorem dataRequests_of_alu {i : Instr} {p : AluClass × AluOp × Reg} (s : State)
    (ha : i.alu? = some p) : dataRequests i s = [] := by
  cases i with
  | ldi | push | pop | lsp | lpc | mov | stm | ldm | jfs | jfr | hlt => cases ha
  | _ => rfl

/-- POP asks for the byte above SP, unless the increment of SP overflows. -/
theorem dataRequests_pop (dst : Reg) (s : State) :
    dataRequests (.pop dst) s =
      if s.cfg.wrap16 = .fault ∧ s.sp = 0xFFFF#16 then [] else [.dataRead (s.sp + 1)] := by
  rw [dataRequests, inc16_eq]
  by_cases h : s.cfg.wrap16 = .fault ∧ s.sp = 0xFFFF#16
  · rw [if_pos h, if_pos h]
  · rw [if_neg h, if_neg h]

/-- The data port of every meaning. -/
theorem exec_dataPort {i : Instr} {s t : State} (he : exec i s = .next t) :
    DataPortResult s t (dataRequests i s) := by
  cases execResult_of_exec he with
  | toAccumulator ha | flagOnly ha =>
    rw [dataRequests_of_alu s ha]
    exact .idle rfl (State.not_rangeFaulted_of_fault_eq rfl)
  | push src ha | stm src ha => exact .write _ _ ha rfl (State.not_rangeFaulted_of_fault_eq rfl)
  | pushOverflow src ha =>
    exact .write _ _ ha rfl fun _ => State.raise_internal_not_rangeFaulted _ _
  | pushRange src ha | stmRange src ha =>
    exact .outOfRange _ (decide_eq_false ha) rfl (State.raise_rangeFaulted _ _ _ _)
  | pop dst hw ha =>
    rw [dataRequests_pop, if_neg hw]
    exact .read _ ha rfl (State.not_rangeFaulted_of_fault_eq rfl)
  | popOverflow dst hw =>
    rw [dataRequests_pop, if_pos hw]
    exact .idle rfl fun _ => State.raise_internal_not_rangeFaulted _ _
  | popRange dst hw ha =>
    rw [dataRequests_pop, if_neg hw]
    exact .outOfRange _ (decide_eq_false ha) rfl (State.raise_rangeFaulted _ _ _ _)
  | ldm dst ha => exact .read _ ha rfl (State.not_rangeFaulted_of_fault_eq rfl)
  | ldmRange dst ha => exact .outOfRange _ (decide_eq_false ha) rfl (State.raise_rangeFaulted _ _ _ _)
  | ldiOverflow => exact .idle rfl fun _ => State.raise_internal_not_rangeFaulted _ _
  | ldi | lsp | lpc | mov | jfsTaken | jfsSkipped | jfrTaken | jfrSkipped | hlt =>
    exact .idle rfl (State.not_rangeFaulted_of_fault_eq rfl)

theorem DataPortResult.length_le {s t : State} {qs : List PortRequest} (h : DataPortResult s t qs) :
    qs.length ≤ 1 := by
  cases h <;> simp

/-- A data address without a write request keeps its byte. -/
theorem DataPortResult.byteAt_kept {s t : State} {qs : List PortRequest} (h : DataPortResult s t qs)
    {a : Addr} (ha : ∀ v, .dataWrite a v ∉ qs) : t.ram.byteAt a = s.ram.byteAt a := by
  cases h with
  | idle hram | read _ _ hram | outOfRange _ _ hram => rw [hram]
  | write b v _ hram =>
    have hab : a ≠ b := by
      rintro rfl
      exact ha v (List.mem_singleton_self _)
    rw [hram, State.store_byteAt, if_neg hab]

/-- A write request in range leaves its byte. -/
theorem DataPortResult.byteAt_written {s t : State} {qs : List PortRequest}
    (h : DataPortResult s t qs) {a : Addr} {v : Byte} (hq : .dataWrite a v ∈ qs)
    (ha : a.toNat < s.ram.capacity) : t.ram.byteAt a = v := by
  cases h with
  | idle => cases hq
  | read => cases List.mem_singleton.mp hq
  | write b w _ hram =>
    cases List.mem_singleton.mp hq
    rw [hram, State.store_byteAt, if_pos rfl]
  | outOfRange q hr =>
    cases List.mem_singleton.mp hq
    exact absurd ha (of_decide_eq_false hr)

/-- From a state without a fault, the range fault is recorded exactly for a request out of range. -/
theorem DataPortResult.rangeFaulted_iff {s t : State} {qs : List PortRequest}
    (h : DataPortResult s t qs) (hs : s.fault = none) :
    t.RangeFaulted ↔ ∃ q ∈ qs, q.inRange s = false := by
  cases h with
  | idle _ hf => simpa using hf hs
  | read a ha _ hf | write a _ ha _ hf => simpa [PortRequest.inRange, ha] using hf hs
  | outOfRange q hq _ hf => simpa [hq] using hf

/-- A write request of an instruction is at the address it stores to. -/
theorem storeAddress_of_dataWrite {i : Instr} {s : State} {a : Addr} {v : Byte}
    (h : .dataWrite a v ∈ dataRequests i s) : storeAddress i s = some a := by
  cases i with
  | stm | push =>
    cases List.mem_singleton.mp h
    rfl
  | pop dst =>
    rw [dataRequests_pop] at h
    split at h <;> simp at h
  | ldm => cases List.mem_singleton.mp h
  | _ => cases h

/-- Settles O21: a meaning changes data memory by its write request alone. -/
theorem memoryChangesOnlyWhereStored : Obligations.MemoryChangesOnlyWhereStored :=
  fun _ _ _ he _ ha => (exec_dataPort he).byteAt_kept fun _ h => ha (storeAddress_of_dataWrite h)

/-! ### The program port of a fetch (R57, R62) -/

/-- Every way a fetch can end, with the requests it has made on the program port. -/
inductive FetchResult (s : State) : Attempt (Decoded × State) → List PortRequest → Prop
  | opcodeRange (hpc : ¬ s.pc.toNat < s.rom.capacity) :
      FetchResult s (.error (s.raise (.memRange .rom .read s.pc))) [.programRead s.pc]
  | overflow (hpc : s.pc.toNat < s.rom.capacity) :
      FetchResult s (.error (s.raise (.internal .overflow16))) [.programRead s.pc]
  | illegal (hpc : s.pc.toNat < s.rom.capacity) (op : Byte) :
      FetchResult s (.error ((s.setPc (s.pc + 1)).raise (.decode op))) [.programRead s.pc]
  | whole (hpc : s.pc.toNat < s.rom.capacity) (d : Decoded) :
      FetchResult s (.ok (d, s.setPc (s.pc + 1))) [.programRead s.pc]
  | immediate (hpc : s.pc.toNat < s.rom.capacity) (hn : (s.pc + 1).toNat < s.rom.capacity)
      (dst : Reg) (n : Byte) :
      FetchResult s (.ok (.instr (.ldi dst n), s.setPc (s.pc + 1)))
        [.programRead s.pc, .programRead (s.pc + 1)]
  | immediateRange (hpc : s.pc.toNat < s.rom.capacity) (hn : ¬ (s.pc + 1).toNat < s.rom.capacity) :
      FetchResult s (.error ((s.setPc (s.pc + 1)).raise (.memRange .rom .read (s.pc + 1))))
        [.programRead s.pc, .programRead (s.pc + 1)]

/-- A fetch ends in no other way. -/
theorem fetchResult (s : State) : FetchResult s s.fetch (programRequests s) := by
  rw [State.fetch_eq, programRequests, State.romRead_eq, State.incPc_eq]
  by_cases hpc : s.pc.toNat < s.rom.capacity
  · rw [if_pos hpc, if_pos hpc]
    by_cases hw : s.cfg.wrap16 = .fault ∧ s.pc = 0xFFFF#16
    · rw [if_pos hw, if_pos hw]
      exact .overflow hpc
    · rw [if_neg hw, if_neg hw]
      cases hc : classify s.cfg.decode (s.rom.byteAt s.pc) with
      | error e => simpa only [hc] using .illegal hpc _
      | ok k =>
        cases k with
        | whole d => simpa only [hc] using .whole hpc d
        | immediateLoad dst =>
          simp only [hc]
          split
          next hn => exact .immediate hpc hn dst _
          next hn => exact .immediateRange hpc hn
  · rw [if_neg hpc, if_neg hpc]
    exact .opcodeRange hpc

theorem FetchResult.not_onDataPort {s : State} {x : Attempt (Decoded × State)}
    {ps : List PortRequest} (h : FetchResult s x ps) : ∀ q ∈ ps, q.onDataPort = false := by
  cases h <;> simp [PortRequest.onDataPort]

theorem FetchResult.length_le {s : State} {x : Attempt (Decoded × State)} {ps : List PortRequest}
    (h : FetchResult s x ps) : ps.length ≤ 2 := by
  cases h <;> simp

/-- Only Immediate-load reads program memory twice, and it has no data request. -/
theorem FetchResult.length_add_le {s s1 t : State} {i : Instr} {ps : List PortRequest}
    (h : FetchResult s (.ok (.instr i, s1)) ps) (hd : DataPortResult s1 t (dataRequests i s1)) :
    ps.length + (dataRequests i s1).length ≤ 2 := by
  cases h with
  | whole => exact Nat.add_le_add_left hd.length_le 1
  | immediate => exact Nat.le_refl 2

/-- What a fetch that succeeds has read was in range. -/
theorem FetchResult.inRange {s : State} {p : Decoded × State} {ps : List PortRequest}
    (h : FetchResult s (.ok p) ps) : ∀ q ∈ ps, q.inRange s = true := by
  cases h with
  | whole hpc => simp [PortRequest.inRange, hpc]
  | immediate hpc hn => simpa [PortRequest.inRange, hpc] using hn

/-- A fetch that fails has recorded the range fault exactly for a read out of range. -/
theorem FetchResult.rangeFaulted_iff {s t : State} {ps : List PortRequest}
    (h : FetchResult s (.error t) ps) : t.RangeFaulted ↔ ∃ q ∈ ps, q.inRange s = false := by
  cases h with
  | opcodeRange hpc =>
    exact iff_of_true (State.raise_rangeFaulted _ _ _ _)
      ⟨.programRead s.pc, by simp, decide_eq_false hpc⟩
  | overflow hpc =>
    simpa [PortRequest.inRange, hpc] using State.raise_internal_not_rangeFaulted _ _
  | illegal hpc => simpa [PortRequest.inRange, hpc] using State.raise_decode_not_rangeFaulted _ _
  | immediateRange hpc hn =>
    exact iff_of_true (State.raise_rangeFaulted _ _ _ _)
      ⟨.programRead (s.pc + 1), by simp, decide_eq_false hn⟩

/-! ### The ports of a step -/

theorem portRequests_of_stopped {s : State} (h : s.run ≠ .running) : portRequests s = [] := by
  rw [portRequests]
  cases hr : s.run with
  | running => exact absurd hr h
  | halted => rfl
  | faulted => rfl

theorem portRequests_of_fetch_error {s t : State} (hr : s.run = .running)
    (hf : s.fetch = .error t) : portRequests s = programRequests s := by
  simp [portRequests, hr, hf]

theorem portRequests_of_fetch_instr {s s1 : State} {i : Instr} (hr : s.run = .running)
    (hf : s.fetch = .ok (.instr i, s1)) :
    portRequests s = programRequests s ++ dataRequests i s1 := by
  simp [portRequests, hr, hf]

theorem portRequests_of_fetch_andFlagOnly {s s1 : State} {r : Reg} (hr : s.run = .running)
    (hf : s.fetch = .ok (.andFlagOnly r, s1)) : portRequests s = programRequests s := by
  simp [portRequests, hr, hf]

theorem fetchResult_of_fetch {s : State} {x : Attempt (Decoded × State)} (hf : s.fetch = x) :
    FetchResult s x (programRequests s) :=
  hf ▸ fetchResult s

theorem PortRequest.inRange_setPc (s : State) (w : Addr) (q : PortRequest) :
    q.inRange (s.setPc w) = q.inRange s := by
  cases q <;> rfl

/-- The requests `rs` say all that happens to data memory from `s` to `t`, and are as few as R57 and R62
say. -/
structure PortsExplain (rs : List PortRequest) (s t : State) : Prop where
  kept : ∀ a, (∀ v, .dataWrite a v ∉ rs) → t.ram.byteAt a = s.ram.byteAt a
  written : ∀ a v, .dataWrite a v ∈ rs → a.toNat < s.ram.capacity → t.ram.byteAt a = v
  length_le : rs.length ≤ 2
  onDataPort_le : (rs.filter PortRequest.onDataPort).length ≤ 1

theorem dataWrite_mem_append {ps qs : List PortRequest} (hps : ∀ q ∈ ps, q.onDataPort = false)
    {a : Addr} {v : Byte} (h : .dataWrite a v ∈ ps ++ qs) : .dataWrite a v ∈ qs := by
  obtain h | h := List.mem_append.mp h
  · exact absurd (hps _ h) (by simp [PortRequest.onDataPort])
  · exact h

theorem filter_onDataPort_program {ps : List PortRequest} (hps : ∀ q ∈ ps, q.onDataPort = false) :
    ps.filter PortRequest.onDataPort = [] :=
  List.filter_eq_nil_iff.mpr fun q hq => by simp [hps q hq]

/-- Requests on the program port alone go with an unchanged data memory. -/
theorem PortsExplain.of_program {ps : List PortRequest} {s t : State}
    (hps : ∀ q ∈ ps, q.onDataPort = false) (hlen : ps.length ≤ 2) (hram : t.ram = s.ram) :
    PortsExplain ps s t where
  kept a _ := by rw [hram]
  written a v h _ := absurd (hps _ h) (by simp [PortRequest.onDataPort])
  length_le := hlen
  onDataPort_le := by simp [filter_onDataPort_program hps]

/-- Requests on the program port and then a meaning's requests on the data port. -/
theorem PortsExplain.of_append {ps qs : List PortRequest} {s t : State}
    (hps : ∀ q ∈ ps, q.onDataPort = false) (hlen : ps.length + qs.length ≤ 2)
    (h : DataPortResult s t qs) : PortsExplain (ps ++ qs) s t where
  kept _ ha := h.byteAt_kept fun v hv => ha v (List.mem_append_right ps hv)
  written _ _ hv := h.byteAt_written (dataWrite_mem_append hps hv)
  length_le := by rwa [List.length_append]
  onDataPort_le := by
    rw [List.filter_append, filter_onDataPort_program hps, List.nil_append]
    exact (List.length_filter_le _ qs).trans h.length_le

theorem DataPortResult.of_setPc {s t : State} {w : Addr} {qs : List PortRequest}
    (h : DataPortResult (s.setPc w) t qs) : DataPortResult s t qs := by
  cases h with
  | idle hram hf => exact .idle hram hf
  | read a ha hram hf => exact .read a ha hram hf
  | write a v ha hram hf => exact .write a v ha hram hf
  | outOfRange q hq hram hf => exact .outOfRange q (q.inRange_setPc s w ▸ hq) hram hf

theorem fetch_error_ram {s t : State} (hf : s.fetch = .error t) : t.ram = s.ram := by
  obtain ⟨f, rfl | rfl⟩ := State.fetch_error s t hf <;> rfl

theorem step_portsExplain {s t : State} (hstep : step s = .next t) :
    PortsExplain (portRequests s) s t := by
  obtain ⟨hs, rfl⟩ | ⟨hr, hf⟩ | ⟨hr, i, s1, hf, he⟩ | ⟨hr, r, s1, hf, rfl⟩ := step_cases s t hstep
  · rw [portRequests_of_stopped hs]
    exact .of_program (by simp) (by simp) rfl
  · have hfetch := fetchResult_of_fetch hf
    rw [portRequests_of_fetch_error hr hf]
    exact .of_program hfetch.not_onDataPort hfetch.length_le (fetch_error_ram hf)
  · have hfetch := fetchResult_of_fetch hf
    have hport := exec_dataPort he
    rw [portRequests_of_fetch_instr hr hf]
    obtain rfl := State.fetch_ok_state hf
    exact .of_append hfetch.not_onDataPort (hfetch.length_add_le hport) hport.of_setPc
  · have hfetch := fetchResult_of_fetch hf
    rw [portRequests_of_fetch_andFlagOnly hr hf]
    obtain rfl := State.fetch_ok_state hf
    exact .of_program hfetch.not_onDataPort hfetch.length_le rfl

/-- Settles O48: the requests are the fetch's on the program port and then the meaning's on the data
port. -/
theorem portRequestsExplainMemory : Obligations.PortRequestsExplainMemory := by
  intro s t hstep
  obtain ⟨hkept, hwritten, hlen, hdata⟩ := step_portsExplain hstep
  exact ⟨hkept, hwritten, hlen, hdata⟩

theorem State.Inv.fault_none {s : State} (h : s.Inv) (hr : s.run = .running) : s.fault = none := by
  obtain ⟨-, -, -, hfault, -⟩ := h
  simpa [State.faultRecordOk, hr] using hfault

/-- Settles O49: a fetch that fails and a meaning each record the range fault exactly for their own
requests, and a fetch that succeeds has read in range. -/
theorem rangeFaultIffRequestOutOfRange : Obligations.RangeFaultIffRequestOutOfRange := by
  intro s t hinv hr hstep
  change t.RangeFaulted ↔ _
  have hnone := hinv.fault_none hr
  obtain ⟨hs, -⟩ | ⟨-, hf⟩ | ⟨-, i, s1, hf, he⟩ | ⟨-, r, s1, hf, rfl⟩ := step_cases s t hstep
  · exact absurd hr hs
  · rw [portRequests_of_fetch_error hr hf]
    exact (fetchResult_of_fetch hf).rangeFaulted_iff
  · have hin := (fetchResult_of_fetch hf).inRange
    have hport := exec_dataPort he
    rw [portRequests_of_fetch_instr hr hf]
    obtain rfl := State.fetch_ok_state hf
    rw [hport.of_setPc.rangeFaulted_iff hnone]
    constructor
    · rintro ⟨q, hq, hout⟩
      exact ⟨q, List.mem_append_right _ hq, hout⟩
    · rintro ⟨q, hq, hout⟩
      obtain hq | hq := List.mem_append.mp hq
      · exact absurd (hin q hq) (by simp [hout])
      · exact ⟨q, hq, hout⟩
  · have hin := (fetchResult_of_fetch hf).inRange
    rw [portRequests_of_fetch_andFlagOnly hr hf]
    obtain rfl := State.fetch_ok_state hf
    refine iff_of_false (State.not_rangeFaulted_of_fault_eq rfl hnone) ?_
    rintro ⟨q, hq, hout⟩
    exact absurd (hin q hq) (by simp [hout])

/-! ### The host's moves on the two memories (R58, R70, R275, R280) -/

/-- The machine with program memory holding an image from address 0 and zeros after it. -/
def State.loaded (s : State) (image : List Byte) : State :=
  s.setMemory .rom { s.rom with cells := Memory.writeList [] 0 image }

/-- The machine with a byte string copied into one of its memories. -/
def State.hostWritten (s : State) (mem : MemKind) (a : Nat) (bytes : List Byte) : State :=
  s.setMemory mem { s.memory mem with cells := Memory.writeList (s.memory mem).cells a bytes }

/-- The machine with the capacities of its two memories replaced. -/
def State.resized (s : State) (romSize ramSize : Nat) : State :=
  { s with
    rom := { s.rom with capacity := romSize }
    ram := { s.ram with capacity := ramSize } }

theorem State.loadProgram_of_le {s : State} {image : List Byte}
    (h : image.length ≤ s.rom.capacity) : s.loadProgram image = .next (s.loaded image) := by
  rw [State.loadProgram, if_pos h]
  rfl

theorem State.loadProgram_of_gt {s : State} {image : List Byte}
    (h : s.rom.capacity < image.length) :
    s.loadProgram image = .fault (.imageTooLong image.length s.rom.capacity) := by
  rw [State.loadProgram, if_neg (Nat.not_le.mpr h)]

/-- Both contents lie below the two sizes, which are within R56's range: what sizing asks for. -/
structure State.Fits (s : State) (romSize ramSize : Nat) : Prop where
  romSize_le : romSize ≤ 65536
  ramSize_le : ramSize ≤ 65536
  rom : Memory.fits romSize s.rom.cells = true
  ram : Memory.fits ramSize s.ram.cells = true

theorem State.sizeMemories_eq_next_iff (s t : State) (romSize ramSize : Nat) :
    s.sizeMemories romSize ramSize = .next t ↔
      s.Fits romSize ramSize ∧ t = s.resized romSize ramSize := by
  rw [State.sizeMemories_next]
  exact ⟨fun ⟨h1, h2, h3, h4, ht⟩ => ⟨⟨h1, h2, h3, h4⟩, ht⟩,
    fun ⟨⟨h1, h2, h3, h4⟩, ht⟩ => ⟨h1, h2, h3, h4, ht⟩⟩

theorem State.Fits.loaded {s : State} {romSize ramSize : Nat} (h : s.Fits romSize ramSize)
    {image : List Byte} (hlen : image.length ≤ romSize) : (s.loaded image).Fits romSize ramSize where
  romSize_le := h.romSize_le
  ramSize_le := h.ramSize_le
  rom := Memory.writeList_fits romSize [] 0 image rfl (by rwa [Nat.zero_add])
  ram := h.ram

theorem State.Fits.hostWritten {s : State} {romSize ramSize : Nat} (h : s.Fits romSize ramSize)
    {mem : MemKind} {a : Nat} {bytes : List Byte}
    (hlen : a + bytes.length ≤ ((s.resized romSize ramSize).memory mem).capacity) :
    (s.hostWritten mem a bytes).Fits romSize ramSize := by
  obtain ⟨hromSize, hramSize, hrom, hram⟩ := h
  cases mem with
  | rom => exact ⟨hromSize, hramSize, Memory.writeList_fits romSize _ a bytes hrom hlen, hram⟩
  | ram => exact ⟨hromSize, hramSize, hrom, Memory.writeList_fits ramSize _ a bytes hram hlen⟩

theorem State.resized_byteAt (s : State) (romSize ramSize : Nat) (mem : MemKind) (a : Addr) :
    ((s.resized romSize ramSize).memory mem).byteAt a = (s.memory mem).byteAt a := by
  cases mem <;> rfl

/-- Sizing and a host write change different parts of a memory. -/
theorem State.hostWritten_resized (s : State) (romSize ramSize : Nat) (mem : MemKind) (a : Nat)
    (bytes : List Byte) :
    (s.resized romSize ramSize).hostWritten mem a bytes =
      (s.hostWritten mem a bytes).resized romSize ramSize := by
  cases mem <;> rfl

theorem State.loaded_byteAt (s : State) (image : List Byte) (a : Addr) :
    (s.loaded image).rom.byteAt a = image.getD a.toNat 0 := by
  rw [MemoryBus.byteAt, show (s.loaded image).rom.cells = Memory.writeList [] 0 image from rfl,
    Memory.read_writeList, Nat.zero_add, Nat.sub_zero]
  by_cases h : a.toNat < image.length
  · rw [if_pos ⟨Nat.zero_le _, h⟩]
  · rw [if_neg (fun hin => h hin.2), List.getD_eq_default _ _ (Nat.not_lt.mp h)]
    rfl

@[simp] theorem State.hostWritten_memory_same (s : State) (mem : MemKind) (a : Nat)
    (bytes : List Byte) :
    (s.hostWritten mem a bytes).memory mem =
      { s.memory mem with cells := Memory.writeList (s.memory mem).cells a bytes } := by
  rw [State.hostWritten, State.memory_setMemory, if_pos rfl]

theorem State.hostWritten_memory_other (s : State) {mem k : MemKind} (a : Nat) (bytes : List Byte)
    (hk : k ≠ mem) : (s.hostWritten mem a bytes).memory k = s.memory k := by
  rw [State.hostWritten, State.memory_setMemory, if_neg hk]

theorem State.hostWritten_byteAt (s : State) (mem : MemKind) (a : Nat) (bytes : List Byte)
    (b : Addr) :
    ((s.hostWritten mem a bytes).memory mem).byteAt b =
      if a ≤ b.toNat ∧ b.toNat < a + bytes.length then bytes.getD (b.toNat - a) 0
      else (s.memory mem).byteAt b := by
  rw [State.hostWritten_memory_same]
  exact Memory.read_writeList _ a bytes b.toNat

/-- Settles O59: the load, the host write and sizing each answer the state named above where they fit, and
what they do to the memories is read off it. -/
theorem loadProgramPlacesImage : Obligations.LoadProgramPlacesImage := by
  intro s
  refine ⟨fun image _ => ⟨fun h => ?load, State.loadProgram_of_gt⟩,
    fun mem a bytes => ⟨fun h => ?write, s.hostWrite_of_gt mem a bytes⟩,
    fun romSize ramSize sized hsized => ?size⟩
  case load =>
    exact ⟨s.loaded image, State.loadProgram_of_le h, rfl, s.loaded_byteAt image, rfl, rfl, rfl, rfl,
      rfl⟩
  case write =>
    refine ⟨s.hostWritten mem a bytes, s.hostWrite_of_le mem a bytes h, by simp,
      s.hostWritten_byteAt mem a bytes, fun b hb => ?_, fun k => s.hostWritten_memory_other a bytes,
      s.setMemory_snapshot mem _, s.setMemory_op mem _, s.setMemory_cfg mem _,
      s.setMemory_freeCount mem _⟩
    exact MemoryBus.read_of_lt _ b (by simpa using hb)
  case size =>
    obtain ⟨hfits, rfl⟩ := (s.sizeMemories_eq_next_iff sized romSize ramSize).mp hsized
    refine ⟨rfl, rfl, s.resized_byteAt romSize ramSize, fun image hold hnew => ?loadOrder,
      fun mem a bytes hold hnew => ?writeOrder⟩
    case loadOrder =>
      exact ⟨s.loaded image, (s.loaded image).resized romSize ramSize, State.loadProgram_of_le hold,
        (State.sizeMemories_eq_next_iff _ _ _ _).mpr ⟨hfits.loaded hnew, rfl⟩,
        State.loadProgram_of_le hnew⟩
    case writeOrder =>
      refine ⟨s.hostWritten mem a bytes, (s.hostWritten mem a bytes).resized romSize ramSize,
        s.hostWrite_of_le mem a bytes hold,
        (State.sizeMemories_eq_next_iff _ _ _ _).mpr ⟨hfits.hostWritten hnew, rfl⟩, ?_⟩
      rw [← State.hostWritten_resized]
      exact State.hostWrite_of_le _ mem a bytes hnew

end Sys2Proof.Machine
end

section
/-! The encoding (30_encoding.md): the opcode map as a relation, which the decoder reads and the encoder
writes, the opcode formulas, the illegal opcodes, and the steps at an opcode whose meaning the decode
parameters decide. -/

namespace Sys2Proof

/-! ### Looking up a field (R82 to R85) -/

theorem selectReg_bind {α : Type} {c : DecodeConfig} (hc : c.wellFormed = true) (op : Byte) (r : Reg)
    (f : Reg → Except DecodeError α) : (selectReg c op (c.regSel r) >>= f) = f r := by
  rw [selectReg_of_some op (c.regOf_regSel hc r)]
  rfl

theorem selectFlag_bind {α : Type} {c : DecodeConfig} (hc : c.wellFormed = true) (op : Byte)
    (k : Flag) (f : Flag → Except DecodeError α) :
    (selectFlag c op (c.flagSel k) >>= f) = f k := by
  rw [selectFlag_of_some op (c.flagOf_flagSel hc k)]
  rfl

theorem aluFields_bind {α : Type} {c : DecodeConfig} (hc : c.wellFormed = true) (q : Sel2) (o : AluOp)
    (r : Reg) (f : AluOp × Reg → Except DecodeError α) :
    (aluFields c (aluByte c q o r) >>= f) = f (o, r) := by
  rw [aluFields_aluByte c hc]
  rfl

theorem exists_of_bind_ok {ε α β : Type} {x : Except ε α} {f : α → Except ε β} {y : β}
    (h : (x >>= f) = .ok y) : ∃ a, x = .ok a ∧ f a = .ok y := by
  cases x with
  | error e => cases h
  | ok a => exact ⟨a, rfl, h⟩

/-- A register field that is read as a register is that register's code. -/
theorem regSel_of_selectReg_bind {α : Type} {c : DecodeConfig} (hc : c.wellFormed = true) {op : Byte}
    {k : Sel3} {f : Reg → Except DecodeError α} {y : α} (h : (selectReg c op k >>= f) = .ok y) :
    ∃ r, c.regSel r = k ∧ f r = .ok y := by
  obtain ⟨r, hr, hf⟩ := exists_of_bind_ok h
  exact ⟨r, c.regSel_of_regOf hc k r (regOf_of_selectReg hr), hf⟩

/-- A flag field that is read as a flag is that flag's code. -/
theorem flagSel_of_selectFlag_bind {α : Type} {c : DecodeConfig} (hc : c.wellFormed = true)
    {op : Byte} {k : Sel2} {f : Flag → Except DecodeError α} {y : α}
    (h : (selectFlag c op k >>= f) = .ok y) : ∃ b, c.flagSel b = k ∧ f b = .ok y := by
  obtain ⟨b, hb, hf⟩ := exists_of_bind_ok h
  exact ⟨b, c.flagSel_of_flagOf hc k b (flagOf_of_selectFlag hb), hf⟩

/-- An arithmetic/logic opcode that is read is put together from its quadrant and what is read. -/
theorem aluByte_of_aluFields_bind {α : Type} {c : DecodeConfig} (hc : c.wellFormed = true) {op : Byte}
    {q : Sel2} (hop : q ++ srcField op ++ ctlField op = op)
    {f : AluOp × Reg → Except DecodeError α} {y : α} (h : (aluFields c op >>= f) = .ok y) :
    ∃ o r, aluByte c q o r = op ∧ c.aluCtl o r = ctlField op ∧ f (o, r) = .ok y := by
  obtain ⟨⟨o, r⟩, hor, hf⟩ := exists_of_bind_ok h
  obtain ⟨hsrc, hctl⟩ := aluByte_of_aluFields c hc op o r hor
  exact ⟨o, r, by rw [aluByte, hsrc, hctl, hop], hctl, hf⟩

/-! ### The row of an opcode decides the bits outside its fields (R87) -/

/-- A byte with the bits that a row fixes put in place of its own. -/
def Row.withFixedBits (op : Byte) : Row → Byte
  | .ldi => 0b00000#5 ++ ctlField op
  | .push => 0b00#2 ++ srcField op ++ 0b111#3
  | .pop => 0b00111#5 ++ ctlField op
  | .lsp => 0x3F#8
  | .lpc => 0x24#8
  | .mov => 0b01#2 ++ srcField op ++ ctlField op
  | .stm => 0b01#2 ++ srcField op ++ 0b111#3
  | .ldm => 0b01111#5 ++ ctlField op
  | .jfs => 0b11#2 ++ fselField op ++ 0b1100#4
  | .jfr => 0b11#2 ++ fselField op ++ 0b0100#4
  | .hlt => 0xFF#8
  | .aluAcc => 0b10#2 ++ srcField op ++ ctlField op
  | .aluFlag => 0b11#2 ++ srcField op ++ ctlField op
  | .illegal => op

theorem withFixedBits_rowOf (op : Byte) : (rowOf op).withFixedBits op = op := by
  revert op; decide

theorem withFixedBits_of_rowOf {op : Byte} {w : Row} (h : rowOf op = w) : w.withFixedBits op = op :=
  h ▸ withFixedBits_rowOf op

theorem ctlField_of_rowOf_aluFlag {op : Byte} (h : rowOf op = .aluFlag) : ctlField op ≠ 4#3 := by
  revert op; decide

/-! ### The opcode map (R90, R91) -/

/-- The opcode map of a choice of the decode parameters: one constructor for each way the encoder builds
an opcode, with what the opcode says. A flag-only opcode whose low bits are `100` is a conditional jump
(R98). -/
inductive OpcodeMap (c : DecodeConfig) : Byte → Classified → Prop
  | ldi (dst : Reg) : OpcodeMap c (0b00000#5 ++ c.regSel dst) (.immediateLoad dst)
  | push (src : Reg) :
      OpcodeMap c (0b00#2 ++ c.regSel src ++ 0b111#3) (.whole (.instr (.push src)))
  | pop (dst : Reg) : OpcodeMap c (0b00111#5 ++ c.regSel dst) (.whole (.instr (.pop dst)))
  | lsp : OpcodeMap c 0x3F#8 (.whole (.instr .lsp))
  | lpc : OpcodeMap c 0x24#8 (.whole (.instr .lpc))
  | mov (dst src : Reg) :
      OpcodeMap c (0b01#2 ++ c.regSel src ++ c.regSel dst) (.whole (.instr (.mov dst src)))
  | stm (src : Reg) : OpcodeMap c (0b01#2 ++ c.regSel src ++ 0b111#3) (.whole (.instr (.stm src)))
  | ldm (dst : Reg) : OpcodeMap c (0b01111#5 ++ c.regSel dst) (.whole (.instr (.ldm dst)))
  | jfs (f : Flag) : OpcodeMap c (0b11#2 ++ c.flagSel f ++ 0b1100#4) (.whole (.instr (.jfs f)))
  | jfr (f : Flag) : OpcodeMap c (0b11#2 ++ c.flagSel f ++ 0b0100#4) (.whole (.instr (.jfr f)))
  | hlt : OpcodeMap c 0xFF#8 (.whole (.instr .hlt))
  | aluAcc (o : AluOp) (r : Reg) :
      OpcodeMap c (aluByte c 0b10#2 o r) (.whole (.instr (accInstr o r)))
  | aluFlag (o : AluOp) (r : Reg) (h : c.flagOnlyEncodable o r = true) :
      OpcodeMap c (aluByte c 0b11#2 o r) (.whole (flagInstr o r))

/-- One of the two fields of an arithmetic/logic opcode codes a register, and 7 does not (R83). -/
theorem DecodeConfig.aluFields_ne_seven {c : DecodeConfig} (hc : c.wellFormed = true) (o : AluOp)
    (r : Reg) : ¬ (c.aluSrc o r = 7#3 ∧ c.aluCtl o r = 7#3) := by
  have hr := c.regSel_ne_seven hc r
  unfold DecodeConfig.aluSrc DecodeConfig.aluCtl
  cases c.aluLayout with
  | regSrcOpCtl => exact fun h => hr h.1
  | opSrcRegCtl => exact fun h => hr h.2

theorem rowOf_aluByte_flagOnly {c : DecodeConfig} (hc : c.wellFormed = true) {o : AluOp} {r : Reg}
    (h : c.flagOnlyEncodable o r = true) : rowOf (aluByte c 0b11#2 o r) = .aluFlag :=
  rowOf_aluFlag _ _ (by simpa [DecodeConfig.flagOnlyEncodable] using h)
    (DecodeConfig.aluFields_ne_seven hc o r)

/-- Classification reads every opcode of the map as the map says. -/
theorem classify_of_opcodeMap {c : DecodeConfig} (hc : c.wellFormed = true) {op : Byte}
    {k : Classified} (h : OpcodeMap c op k) : classify c op = .ok k := by
  have hne := c.regSel_ne_seven hc
  cases h with
  | ldi dst => simp only [classify, rowOf_ldi _ (hne dst), ctlField_append_low, selectReg_bind hc]; rfl
  | push src => simp only [classify, rowOf_push _ (hne src), srcField_append, selectReg_bind hc]; rfl
  | pop dst => simp only [classify, rowOf_pop _ (hne dst), ctlField_append_low, selectReg_bind hc]; rfl
  | lsp => rfl
  | lpc => rfl
  | mov dst src =>
    simp only [classify, rowOf_mov _ _ (hne src) (hne dst), srcField_append, ctlField_append,
      selectReg_bind hc]
    rfl
  | stm src => simp only [classify, rowOf_stm _ (hne src), srcField_append, selectReg_bind hc]; rfl
  | ldm dst => simp only [classify, rowOf_ldm _ (hne dst), ctlField_append_low, selectReg_bind hc]; rfl
  | jfs f => simp only [classify, rowOf_jfs, fselField_append, selectFlag_bind hc]; rfl
  | jfr f => simp only [classify, rowOf_jfr, fselField_append, selectFlag_bind hc]; rfl
  | hlt => rfl
  | aluAcc o r =>
    have hrow : rowOf (aluByte c 0b10#2 o r) = .aluAcc := rowOf_aluAcc _ _
    simp only [classify, hrow, aluFields_bind hc]
    rfl
  | aluFlag o r h => simp only [classify, rowOf_aluByte_flagOnly hc h, aluFields_bind hc]; rfl

/-- Classification reads no other opcode: what it reads in the fields has those fields as its codes. -/
theorem opcodeMap_of_classify {c : DecodeConfig} (hc : c.wellFormed = true) {op : Byte}
    {k : Classified} (h : classify c op = .ok k) : OpcodeMap c op k := by
  unfold classify at h
  cases hrow : rowOf op <;> rw [hrow] at h <;> have hop := withFixedBits_of_rowOf hrow <;>
    simp only [Row.withFixedBits] at hop
  case ldi =>
    obtain ⟨dst, hdst, hk⟩ := regSel_of_selectReg_bind hc h
    cases hk
    exact hop ▸ hdst ▸ .ldi dst
  case push =>
    obtain ⟨src, hsrc, hk⟩ := regSel_of_selectReg_bind hc h
    cases hk
    exact hop ▸ hsrc ▸ .push src
  case pop =>
    obtain ⟨dst, hdst, hk⟩ := regSel_of_selectReg_bind hc h
    cases hk
    exact hop ▸ hdst ▸ .pop dst
  case lsp =>
    cases h
    exact hop ▸ .lsp
  case lpc =>
    cases h
    exact hop ▸ .lpc
  case mov =>
    obtain ⟨src, hsrc, hk⟩ := regSel_of_selectReg_bind hc h
    obtain ⟨dst, hdst, hk⟩ := regSel_of_selectReg_bind hc hk
    cases hk
    exact hop ▸ hsrc ▸ hdst ▸ .mov dst src
  case stm =>
    obtain ⟨src, hsrc, hk⟩ := regSel_of_selectReg_bind hc h
    cases hk
    exact hop ▸ hsrc ▸ .stm src
  case ldm =>
    obtain ⟨dst, hdst, hk⟩ := regSel_of_selectReg_bind hc h
    cases hk
    exact hop ▸ hdst ▸ .ldm dst
  case jfs =>
    obtain ⟨f, hf, hk⟩ := flagSel_of_selectFlag_bind hc h
    cases hk
    exact hop ▸ hf ▸ .jfs f
  case jfr =>
    obtain ⟨f, hf, hk⟩ := flagSel_of_selectFlag_bind hc h
    cases hk
    exact hop ▸ hf ▸ .jfr f
  case hlt =>
    cases h
    exact hop ▸ .hlt
  case aluAcc =>
    obtain ⟨o, r, hbyte, -, hk⟩ := aluByte_of_aluFields_bind hc hop h
    cases hk
    exact hbyte ▸ .aluAcc o r
  case aluFlag =>
    obtain ⟨o, r, hbyte, hctl, hk⟩ := aluByte_of_aluFields_bind hc hop h
    have henc : c.flagOnlyEncodable o r = true := by
      simpa [DecodeConfig.flagOnlyEncodable, hctl] using ctlField_of_rowOf_aluFlag hrow
    cases hk
    exact hbyte ▸ .aluFlag o r henc
  case illegal => cases h

/-! ### The encoder writes the opcode map -/

theorem encode_accInstr (c : DecodeConfig) (o : AluOp) (r : Reg) :
    encodeDecoded c (.instr (accInstr o r)) = [aluByte c 0b10#2 o r] := by
  cases o <;> rfl

theorem encode_flagInstr (c : DecodeConfig) (o : AluOp) (r : Reg) :
    encodeDecoded c (flagInstr o r) = [aluByte c 0b11#2 o r] := by
  cases o <;> rfl

theorem accInstr_wellFormed (c : DecodeConfig) (o : AluOp) (r : Reg) :
    (Decoded.instr (accInstr o r)).wellFormed c = true := by
  cases o <;> rfl

theorem flagInstr_wellFormed (c : DecodeConfig) (o : AluOp) (r : Reg) :
    (flagInstr o r).wellFormed c = c.flagOnlyEncodable o r := by
  cases o <;> rfl

/-- An opcode that is a whole instruction is that instruction's encoding. -/
theorem encode_of_opcodeMap {c : DecodeConfig} {op : Byte} {i : Decoded}
    (h : OpcodeMap c op (.whole i)) : i.wellFormed c = true ∧ encodeDecoded c i = [op] := by
  cases h with
  | aluAcc o r => exact ⟨accInstr_wellFormed c o r, encode_accInstr c o r⟩
  | aluFlag o r henc => exact ⟨(flagInstr_wellFormed c o r).trans henc, encode_flagInstr c o r⟩
  | _ => exact ⟨rfl, rfl⟩

/-- A flag-only instruction that has an encoding stands in the opcode map. -/
theorem opcodeMap_flagInstr {c : DecodeConfig} {o : AluOp} {r : Reg}
    (h : (flagInstr o r).wellFormed c = true) :
    OpcodeMap c (aluByte c 0b11#2 o r) (.whole (flagInstr o r)) :=
  .aluFlag o r (flagInstr_wellFormed c o r ▸ h)

/-- Every instruction that has an encoding, but for Immediate-load, stands in the opcode map at it. -/
theorem opcodeMap_of_wellFormed {c : DecodeConfig} {i : Decoded} (h : i.wellFormed c = true)
    (hldi : ∀ dst n, i ≠ .instr (.ldi dst n)) :
    ∃ op, encodeDecoded c i = [op] ∧ OpcodeMap c op (.whole i) := by
  cases i with
  | andFlagOnly r => exact ⟨_, rfl, opcodeMap_flagInstr (o := .and) h⟩
  | instr j =>
    have halu {k : AluClass} {o : AluOp} {r : Reg} (ha : j.alu? = some (k, o, r)) :
        ∃ op, encodeDecoded c (.instr j) = [op] ∧ OpcodeMap c op (.whole (.instr j)) := by
      obtain ⟨-, rfl⟩ | ⟨-, hj⟩ := Machine.alu_form j k o r ha
      · exact ⟨_, encode_accInstr c o r, .aluAcc o r⟩
      · rw [← hj] at h ⊢
        exact ⟨_, encode_flagInstr c o r, opcodeMap_flagInstr h⟩
    cases j with
    | ldi dst n => exact absurd rfl (hldi dst n)
    | push src => exact ⟨_, rfl, .push src⟩
    | pop dst => exact ⟨_, rfl, .pop dst⟩
    | lsp => exact ⟨_, rfl, .lsp⟩
    | lpc => exact ⟨_, rfl, .lpc⟩
    | mov dst src => exact ⟨_, rfl, .mov dst src⟩
    | stm src => exact ⟨_, rfl, .stm src⟩
    | ldm dst => exact ⟨_, rfl, .ldm dst⟩
    | jfs f => exact ⟨_, rfl, .jfs f⟩
    | jfr f => exact ⟨_, rfl, .jfr f⟩
    | hlt => exact ⟨_, rfl, .hlt⟩
    | _ => exact halu rfl

/-! ### Decoding and encoding are inverse (R82, R88) -/

theorem decode_whole {c : DecodeConfig} {op : Byte} {i : Decoded} (h : classify c op = .ok (.whole i))
    (rest : List Byte) : decode c (op :: rest) = .ok (i, rest) := by
  simp only [decode, h]

theorem decode_immediateLoad {c : DecodeConfig} {op : Byte} {dst : Reg}
    (h : classify c op = .ok (.immediateLoad dst)) (n : Byte) (rest : List Byte) :
    decode c (op :: n :: rest) = .ok (.instr (.ldi dst n), rest) := by
  simp only [decode, h]

/-- Whatever the decoder reads is a whole opcode, or an Immediate-load with the byte after it. -/
theorem decode_cases {c : DecodeConfig} {bytes rest : List Byte} {i : Decoded}
    (h : decode c bytes = .ok (i, rest)) :
    (∃ op, bytes = op :: rest ∧ classify c op = .ok (.whole i)) ∨
      ∃ op dst n, bytes = op :: n :: rest ∧ classify c op = .ok (.immediateLoad dst) ∧
        i = .instr (.ldi dst n) := by
  cases bytes with
  | nil => cases h
  | cons op tail =>
    cases hk : classify c op with
    | error e => simp only [decode, hk, reduceCtorEq] at h
    | ok k =>
      cases k with
      | whole j =>
        cases (decode_whole hk tail).symm.trans h
        exact .inl ⟨op, rfl, hk⟩
      | immediateLoad dst =>
        cases tail with
        | nil => simp only [decode, hk, reduceCtorEq] at h
        | cons n tail' =>
          cases (decode_immediateLoad hk n tail').symm.trans h
          exact .inr ⟨op, dst, n, rfl, hk, rfl⟩

/-- Settles O3: the encoder writes the opcode map, and classification reads it. -/
theorem decodeOfEncode : Obligations.DecodeOfEncode := by
  intro c hc i hi rest
  by_cases hldi : ∃ dst n, i = .instr (.ldi dst n)
  · obtain ⟨dst, n, rfl⟩ := hldi
    exact decode_immediateLoad (classify_of_opcodeMap hc (.ldi dst)) n rest
  · obtain ⟨op, henc, hmap⟩ := opcodeMap_of_wellFormed hi fun dst n e => hldi ⟨dst, n, e⟩
    rw [henc]
    exact decode_whole (classify_of_opcodeMap hc hmap) rest

/-- Settles O4: classification reads nothing but the opcode map, and the encoder writes it. -/
theorem encodeOfDecode : Obligations.EncodeOfDecode := by
  intro c hc bytes rest i h
  obtain ⟨op, rfl, hk⟩ | ⟨op, dst, n, rfl, hk, rfl⟩ := decode_cases h
  · obtain ⟨hwf, henc⟩ := encode_of_opcodeMap (opcodeMap_of_classify hc hk)
    exact ⟨hwf, by rw [henc]; rfl⟩
  · cases opcodeMap_of_classify hc hk
    exact ⟨rfl, rfl⟩

/-! ### What classification refuses (R83, R95) -/

theorem isOk_bind {ε α β : Type} {x : Except ε α} {f : α → Except ε β} {b : Bool}
    (h : ∀ a, (f a).isOk = b) : (x >>= f).isOk = (x.isOk && b) := by
  cases x with
  | error e => rfl
  | ok a => exact h a

theorem selectReg_bind_isOk {α : Type} {c : DecodeConfig} (hc : c.wellFormed = true) {op : Byte}
    {k : Sel3} {f : Reg → Except DecodeError α} {b : Bool} (h : ∀ r, (f r).isOk = b) :
    (selectReg c op k >>= f).isOk = (k != 7#3 && b) := by
  rw [isOk_bind h]
  by_cases hk : k = 7#3
  · rw [hk, selectReg_of_none op (c.regOf_seven hc)]
    rfl
  · obtain ⟨r, hr⟩ := Option.isSome_iff_exists.mp (c.regOf_isSome hc k hk)
    rw [selectReg_of_some op hr, bne_iff_ne.mpr hk]
    rfl

theorem selectFlag_bind_isOk {α : Type} {c : DecodeConfig} (hc : c.wellFormed = true) {op : Byte}
    {k : Sel2} {f : Flag → Except DecodeError α} {b : Bool} (h : ∀ g, (f g).isOk = b) :
    (selectFlag c op k >>= f).isOk = b := by
  obtain ⟨g, hg⟩ := Option.isSome_iff_exists.mp (c.flagOf_isSome hc k)
  rw [selectFlag_of_some op hg]
  exact h g

theorem selectOp_bind_isOk {α : Type} {c : DecodeConfig} (hc : c.wellFormed = true) {op : Byte}
    {k : Sel3} {f : AluOp → Except DecodeError α} {b : Bool} (h : ∀ o, (f o).isOk = b) :
    (selectOp c op k >>= f).isOk = b := by
  obtain ⟨o, ho⟩ := Option.isSome_iff_exists.mp (c.opOf_isSome hc k)
  rw [selectOp_of_some op ho]
  exact h o

/-- The field of an arithmetic/logic opcode that holds the register (R85, R98). -/
def AluLayout.regField (op : Byte) : AluLayout → Sel3
  | .regSrcOpCtl => srcField op
  | .opSrcRegCtl => ctlField op

theorem aluFields_isOk {c : DecodeConfig} (hc : c.wellFormed = true) (op : Byte) :
    (aluFields c op).isOk = (c.aluLayout.regField op != 7#3) := by
  rw [← Bool.and_true (_ != _)]
  unfold aluFields
  cases c.aluLayout with
  | regSrcOpCtl => exact selectOp_bind_isOk hc fun _ => selectReg_bind_isOk hc fun _ => rfl
  | opSrcRegCtl => exact selectOp_bind_isOk hc fun _ => selectReg_bind_isOk hc fun _ => rfl

theorem aluFields_bind_isOk {α : Type} {c : DecodeConfig} (hc : c.wellFormed = true) {op : Byte}
    {f : AluOp × Reg → Except DecodeError α} {b : Bool} (h : ∀ p, (f p).isOk = b) :
    (aluFields c op >>= f).isOk = (c.aluLayout.regField op != 7#3 && b) := by
  rw [isOk_bind h, aluFields_isOk hc]

/-- The register fields of an opcode of a row. -/
def Row.regFields (l : AluLayout) (op : Byte) : Row → List Sel3
  | .ldi | .pop | .ldm => [ctlField op]
  | .push | .stm => [srcField op]
  | .mov => [srcField op, ctlField op]
  | .aluAcc | .aluFlag => [l.regField op]
  | .lsp | .lpc | .jfs | .jfr | .hlt | .illegal => []

/-- An opcode is read unless it is in no row or a register field holds 7. -/
theorem classify_isOk {c : DecodeConfig} (hc : c.wellFormed = true) (op : Byte) :
    (classify c op).isOk =
      (rowOf op != .illegal && ((rowOf op).regFields c.aluLayout op).all (· != 7#3)) := by
  unfold classify
  cases rowOf op with
  | ldi | pop | ldm | push | stm => exact selectReg_bind_isOk hc fun _ => rfl
  | mov => exact selectReg_bind_isOk hc fun _ => selectReg_bind_isOk hc fun _ => rfl
  | jfs | jfr => exact selectFlag_bind_isOk hc fun _ => rfl
  | aluAcc | aluFlag => exact aluFields_bind_isOk hc fun _ => rfl
  | lsp | lpc | hlt | illegal => rfl

/-! ### The default parameters (R90, R95, R91) -/

theorem specRegCode_eq_regSel (r : Reg) :
    Machine.specRegCode r = 0#5 ++ Config.specDefault.decode.regSel r := by
  cases r <;> rfl

theorem specFlagCode_eq_flagSel (f : Flag) :
    Machine.specFlagCode f = 0#6 ++ Config.specDefault.decode.flagSel f := by
  cases f <;> rfl

/-- The opcodes with a register in bits [2:0] alone. -/
theorem opcode_ctl_eq (p : BitVec 5) (r : Reg) :
    p ++ Config.specDefault.decode.regSel r = ((p ++ 0#3 : Byte) + Machine.specRegCode r : Byte) := by
  rw [specRegCode_eq_regSel]
  generalize Config.specDefault.decode.regSel r = d
  revert p d; decide

/-- The opcodes with a register in bits [5:3]. -/
theorem opcode_src_eq (q : Sel2) (r : Reg) (d : Sel3) :
    q ++ Config.specDefault.decode.regSel r ++ d =
      ((q ++ 0#3 ++ d : Byte) + 8 * Machine.specRegCode r : Byte) := by
  rw [specRegCode_eq_regSel]
  generalize Config.specDefault.decode.regSel r = s
  revert q s d; decide

/-- The opcodes with a flag in bits [5:4]. -/
theorem opcode_fsel_eq (q : Sel2) (f : Flag) (p : BitVec 4) :
    q ++ Config.specDefault.decode.flagSel f ++ p =
      ((q ++ 0#2 ++ p : Byte) + 16 * Machine.specFlagCode f : Byte) := by
  rw [specFlagCode_eq_flagSel]
  generalize Config.specDefault.decode.flagSel f = k
  revert q k p; decide

/-- MOV's opcode, which has a register in both fields. -/
theorem opcode_mov_eq (dst src : Reg) :
    0b01#2 ++ Config.specDefault.decode.regSel src ++ Config.specDefault.decode.regSel dst =
      (0x40 + 8 * Machine.specRegCode src + Machine.specRegCode dst : Byte) := by
  rw [specRegCode_eq_regSel, specRegCode_eq_regSel]
  generalize Config.specDefault.decode.regSel src = s
  generalize Config.specDefault.decode.regSel dst = d
  revert s d; decide

theorem aluByte_specDefault_eq (q : Sel2) (o : AluOp) (r : Reg) :
    aluByte Config.specDefault.decode q o r =
      (q ++ 0#3 ++ Config.specDefault.decode.opSel o : Byte) + 8 * Machine.specRegCode r :=
  opcode_src_eq q r _

/-- Settles O5: each field adds its code at its weight to the bits that the row fixes. -/
theorem opcodeFormulas : Obligations.OpcodeFormulas := by
  intro r x f n
  refine ⟨?ldi, ?push, ?pop, ?lsp, ?lpc, ?mov, ?stm, ?ldm, ?jfs, ?jfr, ?hlt, ?add, ?adc, ?sub, ?sbb,
    ?and, ?or, ?xor, ?not, ?addf, ?adcf, ?subf, ?sbbf, ?orf, ?xorf, ?notf⟩
  case lsp | lpc | hlt => rfl
  case mov => rw [encode, opcode_mov_eq]
  case ldi | pop | ldm => rw [encode, opcode_ctl_eq]; rfl
  case push | stm => rw [encode, opcode_src_eq]; rfl
  case jfs | jfr => rw [encode, opcode_fsel_eq]; rfl
  all_goals rw [encode, aluByte_specDefault_eq]; rfl

theorem exists_eq_error_iff {ε α : Type} (x : Except ε α) :
    (∃ e, x = .error e) ↔ x.isOk = false := by
  cases x <;> simp [Except.isOk, Except.toBool]

/-- Settles O6: R95's table lists the bytes in no row and those with 7 in a register field. -/
theorem illegalOpcodesAreThe56 : Obligations.IllegalOpcodesAreThe56 := by
  refine ⟨rfl, fun op => ?_⟩
  rw [exists_eq_error_iff, classify_isOk Config.specDefault_wellFormed]
  revert op; decide

/-- Under the default parameters AND alone has the operation code that the conditional jumps take. -/
theorem flagOnlyEncodable_specDefault (o : AluOp) (r : Reg) :
    Config.specDefault.decode.flagOnlyEncodable o r = decide (o ≠ .and) := by
  cases o <;> rfl

theorem instr_wellFormed_specDefault (i : Instr) :
    i.wellFormed Config.specDefault.decode = true := by
  unfold Instr.wellFormed
  split
  next o r ha =>
    obtain ⟨hk, -⟩ | ⟨-, hi⟩ := Machine.alu_form i _ o r ha
    · cases hk
    · rw [flagOnlyEncodable_specDefault, decide_eq_true_iff]
      rintro rfl
      cases hi
  next => rfl
  next => rfl

/-- Settles O7: what is decoded has an encoding, and the flag-only AND has none. -/
theorem defaultParametersEncodeTheTable : Obligations.DefaultParametersEncodeTheTable := by
  refine ⟨instr_wellFormed_specDefault, fun bytes rest r h => ?_⟩
  obtain ⟨hwf, -⟩ := encodeOfDecode _ Config.specDefault_wellFormed bytes rest _ h
  cases (flagOnlyEncodable_specDefault .and r).symm.trans hwf

/-- Settles O8: each word is the encoding of its instruction. -/
theorem mapWordsDecode : Obligations.MapWordsDecode := by
  have decode_encode (i : Instr) :
      decode Config.specDefault.decode (encode Config.specDefault.decode i ++ []) =
        .ok (.instr i, []) :=
    decodeOfEncode _ Config.specDefault_wellFormed (.instr i) (instr_wellFormed_specDefault i) []
  exact ⟨decode_encode (.ldi .h 0x80), decode_encode (.mov .b .a), decode_encode (.push .b),
    decode_encode (.jfs .s), decode_encode (.add .b), decode_encode (.subf .d), decode_encode .hlt⟩

end Sys2Proof

namespace Sys2Proof.Machine

/-! ### The flag-only AND (R98, R209) -/

/-- The flags of the ALU function are those of its intermediate. -/
theorem flagsOf_flagsFrom (m : SignMode) (i : Int) : FlagsFrom m i (flagsOf m i) where
  z := by simp [zeroFlag]
  cy := by simp [carryFlag]
  s := by
    have h := trunc8_toNat i
    cases m with
    | bit7 => simp only [flagsOf_s, signFlag, decide_eq_true_iff, true_and]; omega
    | never => simp [signFlag]
  p := by simp [parityFlag]

/-- A flag-only instruction writes T, the flags and `OP`. -/
theorem State.afterAluFlags_onlyWrites (s : State) (o : AluOp) (r : Reg) :
    OnlyWrites { temp := true, flags := true, op := true } s (s.afterAluFlags o r) where
  regs _ _ := rfl
  sp _ := rfl
  temp h := nomatch h
  flags h := nomatch h
  op h := nomatch h
  run _ := rfl
  fault := rfl
  rom := rfl
  ramCapacity := rfl
  ramBytes _ _ := rfl
  cfg := rfl
  freeCount := rfl

/-- What an instruction writes does not speak of PC. -/
theorem OnlyWrites.of_setPc {w : Writes} {s t : State} {pc : Addr}
    (h : OnlyWrites w (s.setPc pc) t) : OnlyWrites w s t := by
  obtain ⟨hregs, hsp, htemp, hflags, hop, hrun, hfault, hrom, hcap, hbytes, hcfg, hfree⟩ := h
  exact ⟨hregs, hsp, htemp, hflags, hop, hrun, hfault, hrom, hcap, hbytes, hcfg, hfree⟩

/-- The fetch of an opcode that is a whole instruction. -/
theorem State.fetch_of_whole {s : State} {d : Decoded} (hpc : s.pc.toNat < s.rom.capacity)
    (hw : ¬ (s.cfg.wrap16 = .fault ∧ s.pc = 0xFFFF#16))
    (hc : classify s.cfg.decode (s.rom.byteAt s.pc) = .ok (.whole d)) :
    s.fetch = .ok (d, s.setPc (s.pc + 1)) := by
  simp only [State.fetch_eq, if_pos hpc, if_neg hw, hc]

theorem step_of_fetch_andFlagOnly {s s1 : State} {r : Reg} (hr : s.run = .running)
    (hf : s.fetch = .ok (.andFlagOnly r, s1)) : step s = .next (s1.afterAluFlags .and r) := by
  rw [step_of_running s hr, stepRunning, hf]
  rfl

/-- The spec's default values with the register and the operation of an arithmetic/logic opcode in each
other's place (R98). -/
def swappedLayout : Config :=
  { Config.specDefault with
    decode := { Config.specDefault.decode with aluLayout := .opSrcRegCtl } }

/-- The opcodes `11 100 rrr`, but for `11 100 100`, which is a conditional jump. -/
theorem classify_swappedLayout_and {r : Reg} (hr : r ≠ .e) :
    classify swappedLayout.decode (0xE0 + specRegCode r) = .ok (.whole (.andFlagOnly r)) := by
  have henc : swappedLayout.decode.flagOnlyEncodable .and r = true := by
    cases r with
    | e => exact absurd rfl hr
    | _ => rfl
  have hbyte : aluByte swappedLayout.decode 0b11#2 .and r = 0xE0 + specRegCode r := by
    cases r <;> rfl
  exact hbyte ▸ classify_of_opcodeMap (by decide) (.aluFlag .and r henc)

/-- Settles O42: the opcode is classified as the flag-only AND, whose step is R209's. -/
theorem flagOnlyAndUnderOtherLayout : Obligations.FlagOnlyAndUnderOtherLayout := by
  intro s r hr hpc hcfg hre hbyte
  replace hcfg : s.cfg = swappedLayout := hcfg
  have hc : classify s.cfg.decode (s.rom.byteAt s.pc) = .ok (.whole (.andFlagOnly r)) := by
    rw [hcfg, hbyte, classify_swappedLayout_and hre]
  have hw : ¬ (s.cfg.wrap16 = .fault ∧ s.pc = 0xFFFF#16) := by
    simp [hcfg, swappedLayout, Config.specDefault]
  exact ⟨_, step_of_fetch_andFlagOnly hr (State.fetch_of_whole hpc hw hc), rfl,
    flagsOf_flagsFrom _ _, rfl, rfl, (State.afterAluFlags_onlyWrites _ .and r).of_setPc⟩

/-! ### The decode fault (R95, R243) -/

/-- The fetch of an opcode that is no instruction. -/
theorem State.fetch_of_illegal {s : State} {e : DecodeError} (hpc : s.pc.toNat < s.rom.capacity)
    (hw : ¬ (s.cfg.wrap16 = .fault ∧ s.pc = 0xFFFF#16))
    (hc : classify s.cfg.decode (s.rom.byteAt s.pc) = .error e) :
    s.fetch = .error ((s.setPc (s.pc + 1)).raise (.decode (s.rom.byteAt s.pc))) := by
  simp only [State.fetch_eq, if_pos hpc, if_neg hw, hc]

/-- A fetch that fails at an opcode that is an instruction raises another fault. -/
theorem fetch_error_fault_ne_decode {s t : State} {k : Classified}
    (hc : classify s.cfg.decode (s.rom.byteAt s.pc) = .ok k) (hf : s.fetch = .error t) (op : Byte) :
    t.fault ≠ some (.decode op) := by
  rw [State.fetch_eq, hc] at hf
  split at hf
  next =>
    split at hf
    next => cases hf; simp
    next =>
      cases k with
      | whole d => cases hf
      | immediateLoad dst =>
        simp only at hf
        split at hf
        next => cases hf
        next => cases hf; simp
  next => cases hf; simp

/-- No meaning raises a decode fault. -/
theorem exec_fault_ne_decode {i : Instr} {s t : State} (he : exec i s = .next t)
    (hs : s.fault = none) (op : Byte) : t.fault ≠ some (.decode op) := by
  cases execResult_of_exec he with
  | ldiOverflow | pushOverflow | pushRange | popOverflow | popRange | stmRange | ldmRange => simp
  | _ => exact fun h => nomatch hs.symm.trans h

theorem step_fault_ne_decode {s t : State} {k : Classified} (hr : s.run = .running)
    (hc : classify s.cfg.decode (s.rom.byteAt s.pc) = .ok k) (hs : s.fault = none)
    (hstep : step s = .next t) (op : Byte) : t.fault ≠ some (.decode op) := by
  obtain ⟨hstop, -⟩ | ⟨-, hf⟩ | ⟨-, i, s1, hf, he⟩ | ⟨-, r, s1, hf, rfl⟩ := step_cases s t hstep
  · exact absurd hr hstop
  · exact fetch_error_fault_ne_decode hc hf op
  · obtain rfl := State.fetch_ok_state hf
    exact exec_fault_ne_decode he hs op
  · obtain rfl := State.fetch_ok_state hf
    exact fun h => nomatch hs.symm.trans h

theorem Attempt.outcome_eq_next (x : Attempt State) : ∃ t, x.outcome = .next t := by
  cases x <;> exact ⟨_, rfl⟩

/-- Every meaning answers a next state. -/
theorem exec_eq_next (i : Instr) (s : State) : ∃ t, exec i s = .next t := by
  cases i with
  | ldi | push | pop | stm | ldm => exact Attempt.outcome_eq_next _
  | _ => exact ⟨_, rfl⟩

/-- Every step answers a next state (R126). -/
theorem step_eq_next (s : State) : ∃ t, step s = .next t := by
  by_cases hr : s.run = .running
  · rw [step_of_running s hr, stepRunning]
    cases hf : s.fetch with
    | error t => exact ⟨t, rfl⟩
    | ok p =>
      obtain ⟨d, s1⟩ := p
      cases d with
      | instr i => exact exec_eq_next i s1
      | andFlagOnly r => exact ⟨_, execAndFlagOnly_eq r s1⟩
  · exact ⟨s, step_of_stopped s hr⟩

/-- Settles O51: the illegal opcodes are those that classification refuses, and only their fetch raises
the decode fault. -/
theorem illegalOpcodeFault : Obligations.IllegalOpcodeFault := by
  intro s hr hcfg hpc
  obtain ⟨-, hillegal⟩ := illegalOpcodesAreThe56
  rw [← hillegal, ← hcfg]
  refine ⟨fun ⟨e, hc⟩ => ?fault, fun hlegal hs => ?noFault⟩
  case fault =>
    have hw : ¬ (s.cfg.wrap16 = .fault ∧ s.pc = 0xFFFF#16) := by simp [hcfg, Config.specDefault]
    exact ⟨_, step_of_fetch_error hr (State.fetch_of_illegal hpc hw hc),
      State.raise_faultedFrom _ _⟩
  case noFault =>
    obtain ⟨t, hstep⟩ := step_eq_next s
    cases hc : classify s.cfg.decode (s.rom.byteAt s.pc) with
    | error e => exact absurd ⟨e, hc⟩ hlegal
    | ok k => exact ⟨t, hstep, step_fault_ne_decode hr hc hs hstep⟩

end Sys2Proof.Machine
end

section
/-! The instruction cycle (40_instruction_cycle.md): what a step request does in each run state, where Halted
comes from, which registers a meaning writes, and the range faults of the opcode fetch and of data memory. -/

namespace Sys2Proof

/-! ### The opcode of HLT (R87) -/

/-- Whatever the decode parameters are, HLT is read at 0xFF and at no other opcode: each other row reads an
instruction of its own. -/
theorem classify_eq_hlt_iff (c : DecodeConfig) (op : Byte) :
    classify c op = .ok (.whole (.instr .hlt)) ↔ op = 0xFF#8 := by
  refine ⟨fun h => ?_, fun h => h ▸ rfl⟩
  unfold classify at h
  cases hrow : rowOf op <;> rw [hrow] at h
  case hlt => exact (withFixedBits_of_rowOf hrow).symm
  case lsp | lpc | illegal => cases h
  case ldi | push | pop | stm | ldm | jfs | jfr =>
    obtain ⟨x, -, hx⟩ := exists_of_bind_ok h
    cases hx
  case mov =>
    obtain ⟨src, -, hsrc⟩ := exists_of_bind_ok h
    obtain ⟨dst, -, hdst⟩ := exists_of_bind_ok hsrc
    cases hdst
  case aluAcc | aluFlag =>
    obtain ⟨⟨o, r⟩, -, hor⟩ := exists_of_bind_ok h
    cases o <;> cases hor

end Sys2Proof

namespace Sys2Proof.Machine

/-! ### A step of a Running core (R125) -/

/-- A word may be moved past the end of the range unless `WRAP16 = fault` and it is that end. -/
theorem mayMove16_iff (s : State) (w last : Addr) :
    mayMove16 s w last ↔ ¬ (s.cfg.wrap16 = .fault ∧ w = last) :=
  not_and.symm

/-- The fetch of an Immediate-load whose immediate is in program memory. -/
theorem State.fetch_of_immediateLoad {s : State} {dst : Reg} (hpc : s.pc.toNat < s.rom.capacity)
    (hw : ¬ (s.cfg.wrap16 = .fault ∧ s.pc = 0xFFFF#16))
    (hc : classify s.cfg.decode (s.rom.byteAt s.pc) = .ok (.immediateLoad dst))
    (hn : (s.pc + 1).toNat < s.rom.capacity) :
    s.fetch = .ok (.instr (.ldi dst (s.rom.byteAt (s.pc + 1))), s.setPc (s.pc + 1)) := by
  simp only [State.fetch_eq, if_pos hpc, if_neg hw, hc, if_pos hn]

theorem step_of_fetch_instr {s s1 : State} {i : Instr} (hr : s.run = .running)
    (hf : s.fetch = .ok (.instr i, s1)) : step s = exec i s1 := by
  rw [step_of_running s hr, stepRunning, hf]

/-- Settles O9: the two bytes are a whole opcode with one byte left over, or an Immediate-load with its
immediate. -/
theorem stepRunsDecodedInstruction : Obligations.StepRunsDecodedInstruction := by
  intro s i rest hr hpc hmove hsecond hdec
  have hw := (mayMove16_iff s _ _).mp hmove
  refine step_of_fetch_instr hr ?_
  obtain ⟨op, hbytes, hc⟩ | ⟨op, dst, n, hbytes, hc, hi⟩ := decode_cases hdec
  · cases hbytes
    exact State.fetch_of_whole hpc hw hc
  · cases hbytes
    cases hi
    exact State.fetch_of_immediateLoad hpc hw hc (hsecond rfl)

/-- Settles O10. -/
theorem stepAlwaysAnswersNext : Obligations.StepAlwaysAnswersNext :=
  step_eq_next

/-! ### A stopped core (R130, R40) -/

/-- A state that a step leaves as it is stays through any number of steps. -/
theorem run_of_step_self {M : Host.Core} {s : M.State} (h : M.step s = .next s) (n : Nat) :
    M.run n s = .next s := by
  induction n with
  | zero => rfl
  | succ n ih =>
    rw [Host.Core.run, h]
    exact ih

/-- Settles O11, by induction on the number of requests, each of which is ignored. -/
theorem stoppedCoreIgnoresSteps : Obligations.StoppedCoreIgnoresSteps :=
  fun n s hs => run_of_step_self (M := Sys2Proof.core) (step_of_stopped s hs) n

/-! ### Where Halted comes from (R126, R186) -/

/-- HLT alone halts. -/
theorem exec_halted_iff {i : Instr} {s t : State} (hs : s.run ≠ .halted) (he : exec i s = .next t) :
    t.run = .halted ↔ i = .hlt := by
  constructor
  · intro ht
    cases execResult_of_exec he with
    | hlt => rfl
    | ldiOverflow | pushOverflow | pushRange | popOverflow | popRange | stmRange | ldmRange => cases ht
    | _ => exact absurd ht hs
  · rintro rfl
    rw [exec_hlt] at he
    cases he
    rfl

/-- A step halts a Running core exactly when it fetches HLT. -/
theorem step_halted_iff_fetch {s t : State} (hr : s.run = .running) (hstep : step s = .next t) :
    t.run = .halted ↔ s.fetch = .ok (.instr .hlt, s.setPc (s.pc + 1)) := by
  have hs : s.run ≠ .halted := by simp [hr]
  obtain ⟨hstop, -⟩ | ⟨-, hf⟩ | ⟨-, i, s1, hf, he⟩ | ⟨-, r, s1, hf, rfl⟩ := step_cases s t hstep
  · exact absurd hr hstop
  · simp [fetch_error_run hf, hf]
  · obtain rfl := State.fetch_ok_state hf
    rw [exec_halted_iff (s := s.setPc (s.pc + 1)) hs he, hf]
    simp
  · obtain rfl := State.fetch_ok_state hf
    exact iff_of_false hs (by simp [hf])

/-- HLT is fetched exactly from an address in range that can be incremented and holds 0xFF. -/
theorem State.fetch_hlt_iff (s : State) :
    s.fetch = .ok (.instr .hlt, s.setPc (s.pc + 1)) ↔
      s.pc.toNat < s.rom.capacity ∧ mayMove16 s s.pc 0xFFFF#16 ∧ s.rom.byteAt s.pc = 0xFF := by
  rw [mayMove16_iff]
  constructor
  · intro hf
    obtain ⟨hpc, hw, -, hc | ⟨dst, -, -, hi⟩⟩ := State.fetch_ok s _ _ hf
    · exact ⟨hpc, hw, (classify_eq_hlt_iff _ _).mp hc⟩
    · cases hi
  · rintro ⟨hpc, hw, hop⟩
    exact State.fetch_of_whole hpc hw ((classify_eq_hlt_iff _ _).mpr hop)

/-- Settles O12: HLT alone halts, and 0xFF alone is HLT. -/
theorem haltedExactlyByOpcodeFF : Obligations.HaltedExactlyByOpcodeFF :=
  fun s _ hr hstep => (step_halted_iff_fetch hr hstep).trans s.fetch_hlt_iff

/-! ### The registers and SP (R132, R23, R25) -/

theorem destination_of_toAccumulator {i : Instr} {o : AluOp} {r : Reg}
    (ha : i.alu? = some (.toAccumulator, o, r)) : destination i = some .a := by
  obtain ⟨-, rfl⟩ | ⟨hk, -⟩ := alu_form i _ o r ha
  · cases o <;> rfl
  · cases hk

/-- Settles O17: of the ways a meaning can end, those that write a register write the destination. -/
theorem onlyTheDestinationRegisterChanges : Obligations.OnlyTheDestinationRegisterChanges := by
  intro i s t he r hr
  have hne {dst : Reg} (hd : destination i = some dst) : r ≠ dst := by
    rintro rfl
    exact hr hd
  cases execResult_of_exec he with
  | toAccumulator ha =>
    exact Regs.get_set_other s.regs .a r _ (hne (destination_of_toAccumulator ha))
  | ldi | pop | mov | ldm => exact State.setReg_reg_other _ _ r _ (hne rfl)
  | _ => rfl

/-- Settles O20: of the ways a meaning can end, only those of LSP, PUSH and POP write SP. -/
theorem stackPointerWrittenByStackOnly : Obligations.StackPointerWrittenByStackOnly := by
  intro i s t he hlsp hpush hpop
  cases execResult_of_exec he with
  | lsp => exact absurd rfl hlsp
  | push src => exact absurd rfl (hpush src)
  | pop dst | popRange dst => exact absurd rfl (hpop dst)
  | _ => rfl

/-! ### Range faults (R129, R242) -/

/-- The fetch of an opcode at or above the capacity of program memory. -/
theorem State.fetch_of_range {s : State} (hpc : ¬ s.pc.toNat < s.rom.capacity) :
    s.fetch = .error (s.raise (.memRange .rom .read s.pc)) := by
  rw [State.fetch_eq, if_neg hpc]

/-- Settles O50: the fetch ends at the read of the opcode. -/
theorem opcodeFetchRangeFault : Obligations.OpcodeFetchRangeFault := fun s hr hpc =>
  ⟨_, step_of_fetch_error hr (State.fetch_of_range (Nat.not_lt.mpr hpc)), s.raise_faultedFrom _⟩

theorem exec_stm_of_range (src : Reg) {s : State} (ha : ¬ s.hl.toNat < s.ram.capacity) :
    exec (.stm src) s = .next (s.raise (.memRange .ram .write s.hl)) := by
  rw [exec_stm, if_neg ha]

theorem exec_ldm_of_range (dst : Reg) {s : State} (ha : ¬ s.hl.toNat < s.ram.capacity) :
    exec (.ldm dst) s = .next (s.raise (.memRange .ram .read s.hl)) := by
  rw [exec_ldm, if_neg ha]

/-- PUSH's store faults before SP is decremented. -/
theorem exec_push_of_range (src : Reg) {s : State} (ha : ¬ s.sp.toNat < s.ram.capacity) :
    exec (.push src) s = .next (s.raise (.memRange .ram .write s.sp)) := by
  rw [exec_push, if_neg ha]

/-- POP's load faults after SP has been incremented. -/
theorem exec_pop_of_range (dst : Reg) {s : State} (hw : ¬ (s.cfg.wrap16 = .fault ∧ s.sp = 0xFFFF#16))
    (ha : ¬ (s.sp + 1).toNat < s.ram.capacity) :
    exec (.pop dst) s =
      .next ((s.setSp (s.sp + 1)).raise (.memRange .ram .read (s.sp + 1))) := by
  rw [exec_pop, if_neg hw, if_neg ha]

/-- Settles O53: each meaning answers a fault entry, which for POP starts from the state with SP
incremented. -/
theorem dataRangeFaults : Obligations.DataRangeFaults := by
  intro r s
  refine ⟨fun ha => ⟨?stm, ?ldm⟩, fun ha => ?push, fun hmove ha => ?pop⟩
  case stm => exact ⟨_, exec_stm_of_range r (Nat.not_lt.mpr ha), s.raise_faultedFrom _⟩
  case ldm => exact ⟨_, exec_ldm_of_range r (Nat.not_lt.mpr ha), s.raise_faultedFrom _⟩
  case push => exact ⟨_, exec_push_of_range r (Nat.not_lt.mpr ha), s.raise_faultedFrom _⟩
  case pop =>
    exact ⟨_, exec_pop_of_range r ((mayMove16_iff s _ _).mp hmove) (Nat.not_lt.mpr ha),
      State.raise_faultedFrom _ _⟩

end Sys2Proof.Machine
end

section
/-! Data movement (41_data_movement.md): the meanings of LDI, MOV, STM and LDM where no fault ends them, LDI as
a whole step under the default parameters, and the range fault of its immediate. -/

namespace Sys2Proof.Machine

/-! ### What a move writes -/

/-- Writing a register changes that register and nothing else (R20, R23). -/
theorem State.setReg_onlyWrites (s : State) (r : Reg) (v : Byte) :
    OnlyWrites { regs := [r] } s (s.setReg r v) where
  regs x hx := s.setReg_reg_other r x v (List.ne_of_not_mem_cons hx)
  sp _ := rfl
  temp _ := rfl
  flags _ := rfl
  op _ := rfl
  run _ := rfl
  fault := rfl
  rom := rfl
  ramCapacity := rfl
  ramBytes _ _ := rfl
  cfg := rfl
  freeCount := rfl

/-- A write of T before other writes adds T to what they write. -/
theorem OnlyWrites.of_setT {w : Writes} {s t : State} {v : Byte}
    (h : OnlyWrites w (s.setT v) t) : OnlyWrites { w with temp := true } s t := by
  obtain ⟨hregs, hsp, -, hflags, hop, hrun, hfault, hrom, hcap, hbytes, hcfg, hfree⟩ := h
  exact ⟨hregs, hsp, nofun, hflags, hop, hrun, hfault, hrom, hcap, hbytes, hcfg, hfree⟩

/-! ### The meanings (R140, R144, R148, R152) -/

theorem exec_ldi_of_mayMove16 (dst : Reg) (n : Byte) {s : State} (hmove : mayMove16 s s.pc 0xFFFF#16) :
    exec (.ldi dst n) s = .next ((s.setPc (s.pc + 1)).setReg dst n) := by
  rw [exec_ldi, if_neg ((mayMove16_iff s _ _).mp hmove)]

theorem exec_stm_of_lt (src : Reg) {s : State} (ha : s.hl.toNat < s.ram.capacity) :
    exec (.stm src) s = .next (s.store s.hl (s.reg src)) := by
  rw [exec_stm, if_pos ha, State.store]

theorem exec_ldm_of_lt (dst : Reg) {s : State} (ha : s.hl.toNat < s.ram.capacity) :
    exec (.ldm dst) s = .next (s.setReg dst (s.ram.byteAt s.hl)) := by
  rw [exec_ldm, if_pos ha]

/-- Settles O22: PC is incremented without overflow, then the register is written. -/
theorem ldiLoadsImmediate : Obligations.LdiLoadsImmediate := fun dst n _ hmove =>
  ⟨_, exec_ldi_of_mayMove16 dst n hmove, State.setReg_reg_same _ dst n, rfl,
    (State.setReg_onlyWrites _ dst n).of_setPc⟩

/-- Settles O24: T takes the source before the destination is written, so the two may be one register. -/
theorem movCopiesThroughTemp : Obligations.MovCopiesThroughTemp := fun dst src s =>
  ⟨_, exec_mov dst src s, State.setReg_reg_same _ dst _, rfl, rfl,
    (State.setReg_onlyWrites _ dst _).of_setT⟩

/-- Settles O25: in range, STM is one store at HL. -/
theorem stmStoresAtHL : Obligations.StmStoresAtHL := fun src s ha =>
  ⟨_, exec_stm_of_lt src ha, by rw [State.store_byteAt, if_pos rfl], rfl, s.store_onlyWrites _ _⟩

/-- Settles O26: HL is read before the register is written, which may be H or L. -/
theorem ldmLoadsFromHL : Obligations.LdmLoadsFromHL := fun dst s ha =>
  ⟨_, exec_ldm_of_lt dst ha, s.setReg_reg_same dst _, rfl, s.setReg_onlyWrites dst _⟩

/-! ### LDI under the default parameters (R90, R140) -/

/-- The default arithmetic of PC and SP wraps (R27). -/
theorem mayMove16_of_specDefault {s : State} (hcfg : s.cfg = Config.specDefault) (w last : Addr) :
    mayMove16 s w last := by
  intro hw
  rw [hcfg] at hw
  cases hw

/-- LDI's opcode is the code of its register. -/
theorem classify_specRegCode (dst : Reg) :
    classify Config.specDefault.decode (specRegCode dst) = .ok (.immediateLoad dst) := by
  rw [specRegCode_eq_regSel]
  exact classify_of_opcodeMap Config.specDefault_wellFormed (.ldi dst)

/-- The opcodes of LDI are the register codes. -/
theorem exists_specRegCode_of_le {op : Byte} (h : op ≤ 0x06) : ∃ dst, op = specRegCode dst := by
  have hcode : ∀ x : Byte, x ≤ 0x06 → ∃ dst ∈ Reg.all, x = specRegCode dst := by decide
  obtain ⟨dst, -, hdst⟩ := hcode op h
  exact ⟨dst, hdst⟩

/-- Settles O23: the fetch moves PC to the immediate and reads it, and the meaning moves PC past it. -/
theorem ldiStepAdvancesPcByTwo : Obligations.LdiStepAdvancesPcByTwo := by
  intro s dst hr hcfg hpc hn hop
  have hmove := mayMove16_of_specDefault hcfg
  have hc : classify s.cfg.decode (s.rom.byteAt s.pc) = .ok (.immediateLoad dst) := by
    rw [hcfg, hop, classify_specRegCode]
  have hf := State.fetch_of_immediateLoad hpc ((mayMove16_iff s _ _).mp (hmove _ _)) hc hn
  obtain ⟨t, hexec, hreg, hpct, hwrites⟩ :=
    ldiLoadsImmediate dst (s.rom.byteAt (s.pc + 1)) (s.setPc (s.pc + 1)) (hmove _ _)
  exact ⟨t, (step_of_fetch_instr hr hf).trans hexec, hreg,
    hpct.trans (BitVec.add_assoc s.pc 1 1), hwrites.of_setPc⟩

/-- The fetch of an Immediate-load whose immediate is at or above the capacity of program memory: PC is
already past the opcode. -/
theorem State.fetch_of_immediate_range {s : State} {dst : Reg} (hpc : s.pc.toNat < s.rom.capacity)
    (hw : ¬ (s.cfg.wrap16 = .fault ∧ s.pc = 0xFFFF#16))
    (hc : classify s.cfg.decode (s.rom.byteAt s.pc) = .ok (.immediateLoad dst))
    (hn : ¬ (s.pc + 1).toNat < s.rom.capacity) :
    s.fetch = .error ((s.setPc (s.pc + 1)).raise (.memRange .rom .read (s.pc + 1))) := by
  simp only [State.fetch_eq, if_pos hpc, if_neg hw, hc, if_neg hn]

/-- Settles O52: the fetch ends at the read of the immediate, so LDI's meaning does not run. -/
theorem immediateFetchRangeFault : Obligations.ImmediateFetchRangeFault := by
  intro s hr hcfg hpc hop hn
  obtain ⟨dst, hdst⟩ := exists_specRegCode_of_le hop
  have hc : classify s.cfg.decode (s.rom.byteAt s.pc) = .ok (.immediateLoad dst) := by
    rw [hcfg, hdst, classify_specRegCode]
  have hw := (mayMove16_iff s s.pc 0xFFFF#16).mp (mayMove16_of_specDefault hcfg _ _)
  exact ⟨_, step_of_fetch_error hr (State.fetch_of_immediate_range hpc hw hc (Nat.not_lt.mpr hn)),
    State.raise_faultedFrom _ _⟩

end Sys2Proof.Machine
end

section
/-! Stack (42_stack.md): the meanings of PUSH, POP and LSP where no fault ends them, and a PUSH undone by a
POP. -/

namespace Sys2Proof.Machine

/-! ### What a further write adds, and the byte stored -/

theorem OnlyWrites.refl (s : State) : OnlyWrites {} s s where
  regs _ _ := rfl
  sp _ := rfl
  temp _ := rfl
  flags _ := rfl
  op _ := rfl
  run _ := rfl
  fault := rfl
  rom := rfl
  ramCapacity := rfl
  ramBytes _ _ := rfl
  cfg := rfl
  freeCount := rfl

/-- A write of SP after other writes adds SP to what they write. -/
theorem OnlyWrites.setSp {w : Writes} {s t : State} (h : OnlyWrites w s t) (a : Addr) :
    OnlyWrites { w with sp := true } s (t.setSp a) :=
  { h with sp := nofun }

/-- A write of a register after other writes adds the register to what they write. -/
theorem OnlyWrites.setReg {w : Writes} {s t : State} (h : OnlyWrites w s t) (r : Reg) (v : Byte) :
    OnlyWrites { w with regs := r :: w.regs } s (t.setReg r v) :=
  { h with
    regs := fun x hx => (t.setReg_reg_other r x v (List.ne_of_not_mem_cons hx)).trans
      (h.regs x (List.not_mem_of_not_mem_cons hx)) }

/-- The byte stored is the byte then read at its address. -/
theorem State.store_byteAt_same (s : State) (a : Addr) (v : Byte) :
    (s.store a v).ram.byteAt a = v := by
  rw [State.store_byteAt, if_pos rfl]

/-! ### The meanings (R160, R165, R170) -/

theorem exec_push_of_lt (src : Reg) {s : State} (ha : s.sp.toNat < s.ram.capacity)
    (hmove : mayMove16 s s.sp 0x0000#16) :
    exec (.push src) s = .next ((s.store s.sp (s.reg src)).setSp (s.sp - 1)) := by
  rw [exec_push, if_pos ha, if_neg ((mayMove16_iff s _ _).mp hmove), State.pushed_eq_store]

theorem exec_pop_of_lt (dst : Reg) {s : State} (hmove : mayMove16 s s.sp 0xFFFF#16)
    (ha : (s.sp + 1).toNat < s.ram.capacity) :
    exec (.pop dst) s = .next ((s.setSp (s.sp + 1)).setReg dst (s.ram.byteAt (s.sp + 1))) := by
  rw [exec_pop, if_neg ((mayMove16_iff s _ _).mp hmove), if_pos ha]

/-- Settles O27: the store goes to the old SP, which is decremented after it. -/
theorem pushWritesThenDecrements : Obligations.PushWritesThenDecrements := fun src s ha hmove =>
  ⟨_, exec_push_of_lt src ha hmove, s.store_byteAt_same _ _, rfl, rfl,
    (s.store_onlyWrites s.sp _).setSp _⟩

/-- Settles O28: the load reads at the SP already incremented. -/
theorem popIncrementsThenReads : Obligations.PopIncrementsThenReads := fun dst s hmove ha =>
  ⟨_, exec_pop_of_lt dst hmove ha, State.setReg_reg_same _ dst _, rfl, rfl,
    ((OnlyWrites.refl s).setSp _).setReg dst _⟩

/-- Settles O30: HL is read as a number, and SP takes it whatever the capacity of data memory. -/
theorem lspSetsStackPointer : Obligations.LspSetsStackPointer := fun s =>
  ⟨_, exec_lsp s, Regs.hl_toNat s.regs, rfl, (OnlyWrites.refl s).setSp _⟩

/-! ### PUSH then POP (R166) -/

/-- A word that could be decremented can be incremented again: only 0 has 0xFFFF below it. -/
theorem mayMove16.sub_one {s : State} {w : Addr} (h : mayMove16 s w 0x0000#16) :
    mayMove16 s (w - 1) 0xFFFF#16 := by
  intro hw hlast
  have hzero : w = 0x0000#16 := by bv_omega
  exact h hw hzero

/-- The POP after a PUSH reads the byte that the PUSH has stored and gives SP back its value. -/
theorem exec_pop_after_push (x y : Reg) {s : State} (ha : s.sp.toNat < s.ram.capacity)
    (hmove : mayMove16 s s.sp 0x0000#16) :
    exec (.pop y) ((s.store s.sp (s.reg x)).setSp (s.sp - 1)) =
      .next ((s.store s.sp (s.reg x)).setReg y (s.reg x)) := by
  have hsp : s.sp - 1 + 1 = s.sp := BitVec.sub_add_cancel s.sp 1
  have hin : (s.sp - 1 + 1).toNat < s.ram.capacity := by rwa [hsp]
  rw [exec_pop_of_lt y (s := (s.store s.sp (s.reg x)).setSp (s.sp - 1)) hmove.sub_one hin,
    State.setSp_sp, State.setSp_ram, hsp, State.store_byteAt_same]
  rfl

/-- Settles O29: the two steps come to one store at SP and one register write. -/
theorem pushThenPopCopies : Obligations.PushThenPopCopies := fun x y s ha hmove =>
  ⟨_, _, exec_push_of_lt x ha hmove, exec_pop_after_push x y ha hmove,
    State.setReg_reg_same _ y _, rfl, s.store_byteAt_same _ _,
    (s.store_onlyWrites s.sp _).setReg y _⟩

end Sys2Proof.Machine
end

section
/-! Control transfer (43_control_transfer.md): the meanings of LPC, JFS, JFR and HLT; each writes PC or RUN and
nothing else. -/

namespace Sys2Proof.Machine

/-! ### What writing PC and RUN adds -/

/-- A write of PC after other writes adds nothing to what they write, which does not speak of PC. -/
theorem OnlyWrites.setPc {w : Writes} {s t : State} (h : OnlyWrites w s t) (a : Addr) :
    OnlyWrites w s (t.setPc a) :=
  { h with }

/-- A write of RUN after other writes adds RUN to what they write. -/
theorem OnlyWrites.setRun {w : Writes} {s t : State} (h : OnlyWrites w s t) (r : RunState) :
    OnlyWrites { w with run := true } s { t with run := r } :=
  { h with run := nofun }

/-! ### The meanings (R180, R182, R184, R186) -/

/-- JFS as one write of PC: a jump not taken writes back the PC it finds (R182). -/
theorem exec_jfs_setPc (f : Flag) (s : State) :
    exec (.jfs f) s = .next (s.setPc (if s.flag f = true then s.hl else s.pc)) := by
  rw [exec_jfs]
  by_cases hf : s.flag f = true
  · rw [if_pos hf, if_pos hf]
  · rw [if_neg hf, if_neg hf]; rfl

/-- JFR as one write of PC: a jump not taken writes back the PC it finds (R184). -/
theorem exec_jfr_setPc (f : Flag) (s : State) :
    exec (.jfr f) s = .next (s.setPc (if s.flag f = false then s.hl else s.pc)) := by
  rw [exec_jfr]
  by_cases hf : s.flag f = true
  · rw [if_pos hf, if_neg (ne_false_of_eq_true hf)]; rfl
  · rw [if_neg hf, if_pos (Bool.eq_false_of_not_eq_true hf)]

/-- Settles O31: HL is read as a number, and PC takes it whatever the capacity of program memory. -/
theorem lpcJumpsToHL : Obligations.LpcJumpsToHL := fun s =>
  ⟨_, exec_lpc s, Regs.hl_toNat s.regs, (OnlyWrites.refl s).setPc _⟩

/-- Settles O32: either jump is one write of PC, by its flag HL or the PC it had. -/
theorem conditionalJumps : Obligations.ConditionalJumps := fun f s =>
  ⟨⟨_, exec_jfs_setPc f s, rfl, (OnlyWrites.refl s).setPc _⟩,
    ⟨_, exec_jfr_setPc f s, rfl, (OnlyWrites.refl s).setPc _⟩⟩

/-- Settles O33: HLT writes RUN and does not touch PC. -/
theorem hltHalts : Obligations.HltHalts := fun s =>
  ⟨_, exec_hlt s, rfl, rfl, (OnlyWrites.refl s).setRun .halted⟩

end Sys2Proof.Machine
end

section
/-! The ALU function (44_alu.md R202 to R207): the intermediate of each operation and its range, and each flag
read off the intermediate and off the 8-bit result. -/

namespace Sys2Proof.Machine

/-! ### The 8-bit result (R202) -/

theorem trunc8_eq_iff (i : Int) (x : Byte) : trunc8 i = x ↔ i % 256 = (x.toNat : Int) := by
  rw [← BitVec.toNat_inj, ← trunc8_toNat, Int.natCast_inj]

/-- An intermediate that is a byte is its own result. -/
theorem trunc8_toNat_cast (x : Byte) : trunc8 (x.toNat : Int) = x := by
  rw [trunc8_eq_iff]
  omega

/-- Bit 0 of the result is the oddness of the intermediate. -/
theorem trunc8_getLsbD_zero (i : Int) : (trunc8 i).getLsbD 0 = decide (i % 2 = 1) := by
  have h := trunc8_toNat i
  rw [← BitVec.testBit_toNat, Nat.testBit_zero, decide_eq_decide]
  omega

/-- Bit 7 of a byte is set from 128 on. -/
theorem getLsbD_seven (x : Byte) : x.getLsbD 7 = decide (128 ≤ x.toNat) := by
  rw [← BitVec.msb_eq_getLsbD_last x, BitVec.msb_eq_decide]

/-! ### The intermediate of NOT (R217) -/

/-- The operand of NOT among the contents of A and T, by `NOT_OPERAND`. -/
def notByte (cfg : Config) (a t : Byte) : Byte :=
  match cfg.notOperand with
  | .acc => a
  | .temp => t

theorem notOperand_eq_notByte (s : State) (r : Reg) :
    notOperand s r = notByte s.cfg (s.reg .a) (s.reg r) := rfl

theorem notByte_of_acc {cfg : Config} (h : cfg.notOperand = .acc) (a t : Byte) :
    notByte cfg a t = a := by
  simp only [notByte, h]

theorem notByte_self (cfg : Config) (a : Byte) : notByte cfg a a = a := by
  cases h : cfg.notOperand <;> simp only [notByte, h]

/-- The complement of a byte, as a number. -/
theorem toNat_not_cast (x : Byte) : ((~~~x).toNat : Int) = 255 - (x.toNat : Int) := by
  rw [BitVec.toNat_not]
  omega

/-- The two widths of NOT. -/
theorem notIntermediate_eq (cfg : Config) (a t : Byte) :
    notIntermediate cfg a t =
      if cfg.notWidth = .w8 then 255 - ((notByte cfg a t).toNat : Int)
      else -1 - ((notByte cfg a t).toNat : Int) := by
  cases h : cfg.notWidth <;> simp only [notIntermediate, h] <;> rfl

/-- In 8 bits the intermediate of NOT is the complement. -/
theorem notIntermediate_of_w8 {cfg : Config} (hw : cfg.notWidth = .w8) (a t : Byte) :
    notIntermediate cfg a t = ((~~~(notByte cfg a t)).toNat : Int) := by
  rw [notIntermediate_eq, if_pos hw, toNat_not_cast]

/-- The result of NOT is the complement in both widths, whose intermediates differ by 256. -/
theorem trunc8_notIntermediate (cfg : Config) (a t : Byte) :
    trunc8 (notIntermediate cfg a t) = ~~~(notByte cfg a t) := by
  rw [trunc8_eq_iff, notIntermediate_eq, toNat_not_cast]
  split <;> omega

/-! ### The range of the intermediate (R203) -/

/-- From `lo` to `hi` is the range of the intermediate of an operation: it leaves it for no input, and takes
both ends. -/
def Spans (cfg : Config) (o : AluOp) (lo hi : Int) : Prop :=
  (∀ a t cy, lo ≤ intermediate cfg o a t cy ∧ intermediate cfg o a t cy ≤ hi) ∧
  (∃ a t cy, intermediate cfg o a t cy = lo) ∧ (∃ a t cy, intermediate cfg o a t cy = hi)

theorem carryIn_range (cy : Bool) : 0 ≤ carryIn cy ∧ carryIn cy ≤ 1 := by
  cases cy <;> decide

/-- The logic operations, NOT in its default width, have a byte for their intermediate. -/
theorem exists_byte_of_logic {cfg : Config} (hw : cfg.notWidth = .w8) {o : AluOp}
    (ho : o ∈ [AluOp.and, AluOp.or, AluOp.xor, AluOp.not]) (a t : Byte) (cy : Bool) :
    ∃ x : Byte, intermediate cfg o a t cy = (x.toNat : Int) := by
  cases o with
  | and | or | xor => exact ⟨_, rfl⟩
  | not => exact ⟨_, notIntermediate_of_w8 hw a t⟩
  | add | adc | sub | sbb => simp at ho

theorem carryFlag_of_byte (x : Byte) : carryFlag (x.toNat : Int) = false := by
  rw [carryFlag, decide_eq_false_iff_not]
  omega

/-- A logic operation spans the bytes if it takes 0 and 255 for some inputs. -/
theorem spans_of_logic {cfg : Config} (hw : cfg.notWidth = .w8) {o : AluOp}
    (ho : o ∈ [AluOp.and, AluOp.or, AluOp.xor, AluOp.not])
    (hlo : ∃ a t cy, intermediate cfg o a t cy = 0)
    (hhi : ∃ a t cy, intermediate cfg o a t cy = 255) : Spans cfg o 0 255 := by
  refine ⟨fun a t cy => ?_, hlo, hhi⟩
  obtain ⟨x, hx⟩ := exists_byte_of_logic hw ho a t cy
  rw [hx]
  omega

/-- The intermediates of ADC and SBB are those of ADD and SUB with the carry, and each end is the sum or the
difference of extreme operands. -/
theorem spans_arithmetic (cfg : Config) :
    Spans cfg .add 0 510 ∧ Spans cfg .adc 0 511 ∧ Spans cfg .sub (-255) 255 ∧
      Spans cfg .sbb (-256) 255 := by
  refine ⟨⟨fun a t cy => ?add, ⟨0, 0, false, rfl⟩, ⟨0xFF, 0xFF, false, rfl⟩⟩,
    ⟨fun a t cy => ?adc, ⟨0, 0, false, rfl⟩, ⟨0xFF, 0xFF, true, rfl⟩⟩,
    ⟨fun a t cy => ?sub, ⟨0, 0xFF, false, rfl⟩, ⟨0xFF, 0, false, rfl⟩⟩,
    ⟨fun a t cy => ?sbb, ⟨0, 0xFF, true, rfl⟩, ⟨0xFF, 0, false, rfl⟩⟩⟩
  all_goals
    have hc := carryIn_range cy
    simp only [intermediate]
    omega

theorem intermediate_not_self {cfg : Config} (hw : cfg.notWidth = .w8) (a : Byte) (cy : Bool) :
    intermediate cfg .not a a cy = ((~~~a).toNat : Int) := by
  rw [intermediate, notIntermediate_of_w8 hw, notByte_self]

/-- Settles O43: the arithmetic by its linear bounds, the logic by its bytes. -/
theorem intermediateRanges : Obligations.IntermediateRanges := by
  intro cfg hw spans
  obtain ⟨hadd, hadc, hsub, hsbb⟩ := spans_arithmetic cfg
  refine ⟨hadd, hadc, hsub, hsbb, ?and, ?or, ?xor, ?not, fun o ho a t cy => ?carry⟩
  case and | or =>
    exact spans_of_logic hw (by decide) ⟨0, 0, false, rfl⟩ ⟨0xFF, 0xFF, false, rfl⟩
  case xor =>
    exact spans_of_logic hw (by decide) ⟨0, 0, false, rfl⟩ ⟨0xFF, 0, false, rfl⟩
  case not =>
    exact spans_of_logic hw (by decide) ⟨0xFF, 0xFF, false, intermediate_not_self hw _ _⟩
      ⟨0, 0, false, intermediate_not_self hw _ _⟩
  case carry =>
    obtain ⟨x, hx⟩ := exists_byte_of_logic hw ho a t cy
    rw [alu_flags, flagsOf_cy, hx, carryFlag_of_byte]

/-! ### The zero flag (R204) -/

theorem alu_z_iff (cfg : Config) (o : AluOp) (a t : Byte) (cy : Bool) :
    (alu cfg o a t cy).2.z = true ↔ intermediate cfg o a t cy = 0 :=
  decide_eq_true_iff

/-- The intermediate is 0 exactly when its result is and there is no carry. -/
theorem zeroFlag_eq (i : Int) : zeroFlag i = (trunc8 i == 0 && !carryFlag i) := by
  have hres : trunc8 i = 0 ↔ i % 256 = 0 := trunc8_eq_iff i 0
  rw [Bool.eq_iff_iff, Bool.and_eq_true, beq_iff_eq, hres, Bool.not_eq_true', zeroFlag, carryFlag,
    decide_eq_true_iff, decide_eq_false_iff_not]
  omega

theorem carryIn_eq_toNat (cy : Bool) : carryIn cy = (cy.toNat : Int) := by
  cases cy <;> rfl

theorem toNat_cast_eq_zero_iff (x : Byte) : (x.toNat : Int) = 0 ↔ x = 0 := by
  bv_omega

/-- Settles O44: a sum of bytes is 0 when each of them is, a difference when the two are equal, and a logic
operation when its byte is 0. -/
theorem zeroFlagIsOfTheIntermediate : Obligations.ZeroFlagIsOfTheIntermediate := by
  intro cfg a t cy hw hacc
  simp only [alu_z_iff]
  refine ⟨fun o => zeroFlag_eq _, ?add, ?adc, ?sub, ?sbb, toNat_cast_eq_zero_iff _,
    toNat_cast_eq_zero_iff _, (toNat_cast_eq_zero_iff _).trans BitVec.xor_eq_zero_iff, ?not⟩
  case add | sub =>
    rw [intermediate]
    bv_omega
  case adc =>
    rw [intermediate, carryIn_eq_toNat, ← Bool.toNat_eq_zero]
    bv_omega
  case sbb =>
    rw [intermediate, carryIn_eq_toNat]
    omega
  case not =>
    rw [intermediate, notIntermediate_eq, if_pos hw, notByte_of_acc hacc]
    bv_omega

/-! ### The parity and the sign flag (R205, R206) -/

/-- Settles O45: the result keeps the parity of the intermediate, since 256 is even. -/
theorem parityIsEvenness : Obligations.ParityIsEvenness := by
  intro cfg o a t cy
  refine ⟨rfl, ?_⟩
  rw [alu_flags, flagsOf_p, alu_result, trunc8_getLsbD_zero, parityFlag, ← decide_not, decide_eq_decide]
  omega

theorem signFlag_bit7 (i : Int) : signFlag .bit7 i = (trunc8 i).getLsbD 7 := (getLsbD_seven _).symm

theorem signFlag_never (i : Int) : signFlag .never i = false := rfl

/-- Under `SIGN_MODE = never` a meaning leaves S clear: the ALU clears it, and nothing else writes it. -/
theorem exec_keeps_sign_clear {i : Instr} {s t : State} (hm : s.cfg.signMode = .never)
    (hs : s.flags.s = false) (he : exec i s = .next t) : t.flags.s = false := by
  cases ha : i.alu? with
  | some p => rw [exec_flags_of_alu ha he, alu_flags, flagsOf_s, hm, signFlag_never]
  | none => rw [exec_flags_of_not_alu ha he, hs]

theorem fetch_error_flags {s t : State} (hf : s.fetch = .error t) : t.flags = s.flags := by
  obtain ⟨f, rfl | rfl⟩ := State.fetch_error s t hf <;> rfl

/-- Settles O46: the flags come from `signFlag`, and a step is a fetch, which writes no flag, and a meaning. -/
theorem signFlagByMode : Obligations.SignFlagByMode := by
  refine ⟨fun cfg o a t cy => ⟨fun hm => ?bit7, fun hm => ?never⟩, fun s t hm hs hstep => ?step⟩
  case bit7 => rw [alu_flags, flagsOf_s, hm, signFlag_bit7, alu_result]
  case never => rw [alu_flags, flagsOf_s, hm, signFlag_never]
  case step =>
    obtain ⟨-, rfl⟩ | ⟨-, hf⟩ | ⟨-, i, s1, hf, he⟩ | ⟨-, r, s1, hf, rfl⟩ := step_cases s t hstep
    · exact hs
    · rw [fetch_error_flags hf, hs]
    · obtain rfl := State.fetch_ok_state hf
      exact exec_keeps_sign_clear (s := s.setPc (s.pc + 1)) hm hs he
    · obtain rfl := State.fetch_ok_state hf
      exact (congrArg (signFlag · _) hm).trans (signFlag_never _)

end Sys2Proof.Machine
end

section
/-! The arithmetic/logic instructions (44_alu.md R209 to R226): what an instruction of each class writes, from
the intermediate of its operation. -/

namespace Sys2Proof.Machine

/-! ### An instruction of each class (R209) -/

/-- A to-accumulator instruction is the flag-only one with the result written to A. -/
theorem State.afterAlu_eq_setReg (s : State) (o : AluOp) (r : Reg) :
    s.afterAlu o r = (s.afterAluFlags o r).setReg .a
      (trunc8 (intermediate s.cfg o (s.reg .a) (s.reg r) s.flags.cy)) := rfl

theorem State.afterAlu_onlyWrites (s : State) (o : AluOp) (r : Reg) :
    OnlyWrites { regs := [.a], temp := true, flags := true, op := true } s (s.afterAlu o r) :=
  (s.afterAluFlags_onlyWrites o r).setReg .a _

/-- A to-accumulator instruction whose intermediate is `i`: A takes the result, the flags are those of `i`. -/
theorem exec_accInstr_of_intermediate {o : AluOp} {r : Reg} {s : State} {i : Int}
    (hi : intermediate s.cfg o (s.reg .a) (s.reg r) s.flags.cy = i) :
    ∃ u, exec (accInstr o r) s = .next u ∧ u.reg .a = trunc8 i ∧ u.t = s.reg r ∧
      FlagsFrom s.cfg.signMode i u.flags ∧ u.op = .noOp ∧ u.pc = s.pc ∧
      OnlyWrites { regs := [.a], temp := true, flags := true, op := true } s u := by
  subst hi
  exact ⟨_, exec_accInstr o r s, rfl, rfl, flagsOf_flagsFrom _ _, rfl, rfl, s.afterAlu_onlyWrites o r⟩

/-- A flag-only instruction whose intermediate is `i`: the flags are those of `i`. -/
theorem exec_flagInstr_of_intermediate {o : AluOp} {r : Reg} {j : Instr} {s : State} {i : Int}
    (hj : flagInstr o r = .instr j)
    (hi : intermediate s.cfg o (s.reg .a) (s.reg r) s.flags.cy = i) :
    ∃ u, exec j s = .next u ∧ u.t = s.reg r ∧ FlagsFrom s.cfg.signMode i u.flags ∧
      u.op = .noOp ∧ u.pc = s.pc ∧ OnlyWrites { temp := true, flags := true, op := true } s u := by
  subst hi
  exact ⟨_, exec_flagInstr o r j s hj, rfl, flagsOf_flagsFrom _ _, rfl, rfl,
    s.afterAluFlags_onlyWrites o r⟩

/-! ### Result to the accumulator (R210 to R217) -/

/-- A to-accumulator instruction with the result as a number. -/
theorem exec_accInstr_toNat (o : AluOp) (r : Reg) (s : State) :
    let i := intermediate s.cfg o (s.reg .a) (s.reg r) s.flags.cy
    ∃ u, exec (accInstr o r) s = .next u ∧ ((u.reg .a).toNat : Int) = i % 256 ∧ u.t = s.reg r ∧
      FlagsFrom s.cfg.signMode i u.flags ∧ u.op = .noOp ∧ u.pc = s.pc ∧
      OnlyWrites { regs := [.a], temp := true, flags := true, op := true } s u := by
  obtain ⟨u, hexec, ha, hrest⟩ := exec_accInstr_of_intermediate (o := o) (r := r) (s := s) rfl
  exact ⟨u, hexec, by rw [ha, trunc8_toNat], hrest⟩

/-- Settles O34: the intermediates of ADD and ADC are the exact sums. -/
theorem additionToAccumulator : Obligations.AdditionToAccumulator := fun r s =>
  ⟨exec_accInstr_toNat .add r s, exec_accInstr_toNat .adc r s⟩

/-- Settles O35: the intermediates of SUB and SBB are the exact differences. -/
theorem subtractionToAccumulator : Obligations.SubtractionToAccumulator := fun r s =>
  ⟨exec_accInstr_toNat .sub r s, exec_accInstr_toNat .sbb r s⟩

/-- The flags of a byte have no carry. -/
theorem FlagsFrom.cy_of_byte {m : SignMode} {x : Byte} {f : Flags}
    (h : FlagsFrom m (x.toNat : Int) f) : f.cy = false := by
  rw [← Bool.not_eq_true, h.cy]
  omega

/-- A to-accumulator instruction whose intermediate is a byte: A takes the byte, without a carry. -/
theorem exec_accInstr_of_byte {o : AluOp} {r : Reg} {s : State} {x : Byte}
    (hx : intermediate s.cfg o (s.reg .a) (s.reg r) s.flags.cy = (x.toNat : Int)) :
    ∃ u, exec (accInstr o r) s = .next u ∧ u.reg .a = x ∧ u.t = s.reg r ∧ u.flags.cy = false ∧
      FlagsFrom s.cfg.signMode (u.reg .a).toNat u.flags ∧ u.op = .noOp ∧ u.pc = s.pc ∧
      OnlyWrites { regs := [.a], temp := true, flags := true, op := true } s u := by
  obtain ⟨u, hexec, ha, ht, hflags, hrest⟩ := exec_accInstr_of_intermediate hx
  rw [trunc8_toNat_cast] at ha
  exact ⟨u, hexec, ha, ht, hflags.cy_of_byte, ha ▸ hflags, hrest⟩

/-- Settles O36: the intermediates of AND, OR and XOR are the bitwise results. -/
theorem logicToAccumulator : Obligations.LogicToAccumulator := fun r s =>
  ⟨exec_accInstr_of_byte (o := .and) (r := r) (s := s) rfl,
    exec_accInstr_of_byte (o := .or) (r := r) (s := s) rfl,
    exec_accInstr_of_byte (o := .xor) (r := r) (s := s) rfl⟩

/-- Settles O37: the widths give different intermediates, hence flags, with the same result. -/
theorem notComplementsOperand : Obligations.NotComplementsOperand := by
  intro r s x
  obtain ⟨u, hexec, ha, hrest⟩ :=
    exec_accInstr_of_intermediate (o := .not) (notIntermediate_eq s.cfg (s.reg .a) (s.reg r))
  rw [← notIntermediate_eq, trunc8_notIntermediate, ← notOperand_eq_notByte] at ha
  exact ⟨u, hexec, ha, hrest⟩

/-! ### Flags only (R220 to R226) -/

/-- Settles O38: the intermediates are the exact sums and differences. -/
theorem flagOnlyArithmetic : Obligations.FlagOnlyArithmetic := fun r _ =>
  ⟨exec_flagInstr_of_intermediate (o := .add) (r := r) rfl rfl,
    exec_flagInstr_of_intermediate (o := .adc) (r := r) rfl rfl,
    exec_flagInstr_of_intermediate (o := .sub) (r := r) rfl rfl,
    exec_flagInstr_of_intermediate (o := .sbb) (r := r) rfl rfl⟩

/-- Settles O39: the intermediates are the bitwise results, and NOT's by its width. -/
theorem flagOnlyLogic : Obligations.FlagOnlyLogic := fun r s =>
  ⟨exec_flagInstr_of_intermediate (o := .or) (r := r) rfl rfl,
    exec_flagInstr_of_intermediate (o := .xor) (r := r) rfl rfl,
    exec_flagInstr_of_intermediate (o := .not) (r := r) rfl (notIntermediate_eq s.cfg _ _)⟩

/-- Settles O40: the two forms differ in the write of A alone. -/
theorem flagOnlyAgreesWithAccumulatorForm : Obligations.FlagOnlyAgreesWithAccumulatorForm :=
  fun o r j s hj =>
    ⟨_, _, exec_accInstr o r s, exec_flagInstr o r j s hj, rfl, rfl, rfl, fun _ => rfl⟩

/-- Settles O41: the difference is 0 for equal bytes, and it is never above 255, so that there is a carry
exactly when it is negative. -/
theorem subfCompares : Obligations.SubfCompares := by
  intro r s
  obtain ⟨-, -, ⟨u, hexec, -, hflags, -, -, hwrites⟩, -⟩ := flagOnlyArithmetic r s
  refine ⟨u, hexec, hflags.z.trans ?zero, hflags.cy.trans ?carry, hwrites.regs .a List.not_mem_nil⟩
  case zero => bv_omega
  case carry => omega

end Sys2Proof.Machine
end

section
/-! Faults and reset (60_exceptions.md R245 to R249): which meanings can fault, what a step has done when it
faults, the Faulted state, and the way out of it. -/

namespace Sys2Proof.Machine

/-! ### The meanings that can fault (R245) -/

theorem not_overflow_of_wrap {s : State} (hw : s.cfg.wrap16 = .wrap) (p : Prop) :
    ¬ (s.cfg.wrap16 = .fault ∧ p) := by
  simp [hw]

/-- The data accesses that fault, with the condition and the state of each. -/
inductive DataFault (s : State) : Instr → State → Prop
  | stm (src : Reg) (ha : s.ram.capacity ≤ s.hl.toNat) :
      DataFault s (.stm src) (s.raise (.memRange .ram .write s.hl))
  | ldm (dst : Reg) (ha : s.ram.capacity ≤ s.hl.toNat) :
      DataFault s (.ldm dst) (s.raise (.memRange .ram .read s.hl))
  | push (src : Reg) (ha : s.ram.capacity ≤ s.sp.toNat) :
      DataFault s (.push src) (s.raise (.memRange .ram .write s.sp))
  | pop (dst : Reg) (ha : s.ram.capacity ≤ (s.sp + 1).toNat) :
      DataFault s (.pop dst) ((s.setSp (s.sp + 1)).raise (.memRange .ram .read (s.sp + 1)))

/-- Where 16-bit arithmetic wraps, a meaning faults in no other way. -/
theorem dataFault_of_exec {i : Instr} {s t : State} (hs : s.run ≠ .faulted)
    (hw : s.cfg.wrap16 = .wrap) (he : exec i s = .next t) (ht : t.run = .faulted) :
    DataFault s i t := by
  cases execResult_of_exec he with
  | stmRange src ha => exact .stm src (Nat.le_of_not_lt ha)
  | ldmRange dst ha => exact .ldm dst (Nat.le_of_not_lt ha)
  | pushRange src ha => exact .push src (Nat.le_of_not_lt ha)
  | popRange dst _ ha => exact .pop dst (Nat.le_of_not_lt ha)
  | ldiOverflow dst n hover | pushOverflow src ha hover | popOverflow dst hover =>
    exact absurd hover (not_overflow_of_wrap hw _)
  | hlt => cases ht
  | _ => exact absurd ht hs

/-- Settles O55: a meaning that faults is one of the four data accesses, and each faults at or above the
capacity. -/
theorem instructionsThatCanFault : Obligations.InstructionsThatCanFault := by
  intro i s t hr hw he
  constructor
  · intro ht
    cases dataFault_of_exec (by simp [hr]) hw he ht with
    | stm src ha => exact .inl ⟨src, rfl, ha⟩
    | ldm dst ha => exact .inr (.inl ⟨dst, rfl, ha⟩)
    | push src ha => exact .inr (.inr (.inl ⟨src, rfl, ha⟩))
    | pop dst ha => exact .inr (.inr (.inr ⟨dst, rfl, ha⟩))
  · rintro (⟨src, rfl, ha⟩ | ⟨dst, rfl, ha⟩ | ⟨src, rfl, ha⟩ | ⟨dst, rfl, ha⟩)
    · cases (exec_stm_of_range src (Nat.not_lt.mpr ha)).symm.trans he
      rfl
    · cases (exec_ldm_of_range dst (Nat.not_lt.mpr ha)).symm.trans he
      rfl
    · cases (exec_push_of_range src (Nat.not_lt.mpr ha)).symm.trans he
      rfl
    · cases (exec_pop_of_range dst (not_overflow_of_wrap hw _) (Nat.not_lt.mpr ha)).symm.trans he
      rfl

/-! ### Faults are precise (R247, R129) -/

/-- A data access that faults has moved SP at most, and up by one. -/
theorem DataFault.eq_raise {i : Instr} {s t : State} (h : DataFault s i t) :
    ∃ f sp, t = (s.setSp sp).raise f ∧ (sp = s.sp ∨ sp = s.sp + 1) := by
  cases h with
  | stm | ldm | push => exact ⟨_, s.sp, rfl, .inl rfl⟩
  | pop => exact ⟨_, s.sp + 1, rfl, .inr rfl⟩

/-- A step that faults ends in a fault entry from its first state with only PC and SP moved: the fetch moves
PC, and only POP moves SP before it faults. -/
theorem step_faulted_eq_raise {s t : State} (hr : s.run = .running) (hw : s.cfg.wrap16 = .wrap)
    (hstep : step s = .next t) (ht : t.run = .faulted) :
    ∃ f pc sp, t = ((s.setPc pc).setSp sp).raise f ∧
      (pc = s.pc ∨ pc = s.pc + 1) ∧ (sp = s.sp ∨ sp = s.sp + 1) := by
  have hs : s.run ≠ .faulted := by simp [hr]
  obtain ⟨hstop, -⟩ | ⟨-, hf⟩ | ⟨-, i, s1, hf, he⟩ | ⟨-, r, s1, hf, rfl⟩ := step_cases s t hstep
  · exact absurd hr hstop
  · obtain ⟨f, rfl | rfl⟩ := State.fetch_error s t hf
    · exact ⟨f, s.pc, s.sp, rfl, .inl rfl, .inl rfl⟩
    · exact ⟨f, s.pc + 1, s.sp, rfl, .inr rfl, .inl rfl⟩
  · obtain rfl := State.fetch_ok_state hf
    obtain ⟨f, sp, rfl, hsp⟩ :=
      (dataFault_of_exec (s := s.setPc (s.pc + 1)) hs hw he ht).eq_raise
    exact ⟨f, s.pc + 1, sp, rfl, .inr rfl, hsp⟩
  · obtain rfl := State.fetch_ok_state hf
    exact absurd ht hs

/-- Settles O56: fault entry keeps what the state before it held, and that state differs from the first in PC
and SP alone. -/
theorem faultsArePrecise : Obligations.FaultsArePrecise := by
  intro s t hr hw hstep ht
  obtain ⟨f, pc, sp, rfl, hpc, hsp⟩ := step_faulted_eq_raise hr hw hstep ht
  exact ⟨rfl, rfl, rfl, rfl, rfl, hpc, hsp, Option.some_ne_none f⟩

/-! ### Fault entry and reset (R246, R249) -/

/-- Settles O57: a Faulted core ignores every step request. -/
theorem faultEntry : Obligations.FaultEntry := fun s f =>
  ⟨s.raise_faultedFrom f, fun n => stoppedCoreIgnoresSteps n (s.raise f) (by simp)⟩

/-- After reset a HLT at address 0 is fetched under any parameters, since PC is far from 0xFFFF. -/
theorem State.fetch_hlt_of_reset {s : State} (hcap : 0 < s.rom.capacity)
    (hop : s.rom.byteAt 0 = 0xFF) :
    s.applyReset.fetch = .ok (.instr .hlt, s.applyReset.setPc (s.applyReset.pc + 1)) :=
  s.applyReset.fetch_hlt_iff.mpr ⟨hcap, fun _ => by simp, hop⟩

/-- Settles O58: the core is Running after reset, so that the step fetches at address 0. -/
theorem resetLeavesStoppedStates : Obligations.ResetLeavesStoppedStates := by
  intro s
  refine ⟨rfl, rfl, rfl, step_of_running s.applyReset rfl, fun hcap hop => ?_⟩
  exact ⟨_, step_of_fetch_instr rfl (State.fetch_hlt_of_reset hcap hop), rfl, rfl⟩

end Sys2Proof.Machine
end

section
/-! Reset and the host's moves (70_reset_and_hazards.md R270 to R280): the values the reset input gives, and
that reset, loading, sizing, clearing and writing keep the invariant. -/

namespace Sys2Proof.Machine

/-! ### The reset values (R42, R270, R271) -/

theorem State.applyReset_reg (s : State) (r : Reg) : s.applyReset.reg r = 0 := by
  cases r <;> rfl

theorem State.applyReset_flag (s : State) (k : Flag) : s.applyReset.flag k = false := by
  cases k <;> rfl

theorem State.applyReset_hl (s : State) : s.applyReset.hl = 0 := by
  rw [State.hl_eq, State.applyReset_regs]
  decide

/-- A memory with no listed byte reads as zeros (R36). -/
theorem MemoryBus.byteAt_of_cells_nil {m : MemoryBus} (h : m.cells = []) (a : Addr) :
    m.byteAt a = 0 := by
  rw [MemoryBus.byteAt, h]
  rfl

/-- Settles O1: reset overwrites every field of the core's state with its power-on value and no field of the
machine beside them. -/
theorem resetClearsCoreKeepsMemories : Obligations.ResetClearsCoreKeepsMemories := by
  intro s
  exact ⟨s.applyReset_reg, s.applyReset_hl, s.applyReset_sp, s.applyReset_pc, s.applyReset_t,
    s.applyReset_flag, s.applyReset_op, s.applyReset_run, s.applyReset_fault, s.applyReset_rom,
    s.applyReset_ram, s.applyReset_cfg, rfl, MemoryBus.byteAt_of_cells_nil rfl⟩

/-! ### What a move that is answered has done (R58, R280) -/

theorem State.loadProgram_eq_next_iff (s t : State) (image : List Byte) :
    s.loadProgram image = .next t ↔ image.length ≤ s.rom.capacity ∧ t = s.loaded image := by
  by_cases h : image.length ≤ s.rom.capacity
  · simp [State.loadProgram_of_le h, h, eq_comm]
  · simp [State.loadProgram_of_gt (Nat.not_le.mp h), h]

theorem State.hostWrite_eq_next_iff (s t : State) (mem : MemKind) (a : Nat) (bytes : List Byte) :
    s.hostWrite mem a bytes = .next t ↔
      a + bytes.length ≤ (s.memory mem).capacity ∧ t = s.hostWritten mem a bytes := by
  by_cases h : a + bytes.length ≤ (s.memory mem).capacity
  · simp [s.hostWrite_of_le mem a bytes h, State.hostWritten, h, eq_comm]
  · simp [s.hostWrite_of_gt mem a bytes (Nat.not_le.mp h), h]

/-! ### The host's moves keep the invariant (R273, R275, R280) -/

/-- An emptied memory is well-formed, since the capacity stays. -/
theorem MemoryBus.cleared_wf {m : MemoryBus} (hm : m.wf = true) :
    MemoryBus.wf { m with cells := [] } = true := by
  simp only [MemoryBus.wf, Bool.and_eq_true, decide_eq_true_eq] at hm ⊢
  exact ⟨hm.1, rfl⟩

theorem State.Inv.memory_wf {s : State} (h : s.Inv) (mem : MemKind) : (s.memory mem).wf = true := by
  obtain ⟨hrom, hram, -, -, -⟩ := h
  cases mem with
  | rom => exact hrom
  | ram => exact hram

/-- Of a memory the invariant asks only that it is well-formed. -/
theorem State.Inv.setMemory {s : State} (h : s.Inv) (mem : MemKind) {m : MemoryBus}
    (hm : m.wf = true) : (s.setMemory mem m).Inv := by
  obtain ⟨hrom, hram, hrest⟩ := h
  cases mem with
  | rom => exact ⟨hm, hram, hrest⟩
  | ram => exact ⟨hrom, hm, hrest⟩

/-- Reset empties FAULT and OP as it makes the core Running, whatever they held. -/
theorem State.Inv.applyReset {s : State} (h : s.Inv) : s.applyReset.Inv := by
  obtain ⟨hrom, hram, hcfg, -, -⟩ := h
  exact ⟨hrom, hram, hcfg, rfl, rfl⟩

theorem State.Inv.clearMemory {s : State} (h : s.Inv) (mem : MemKind) : (s.clearMemory mem).Inv :=
  h.setMemory mem (MemoryBus.cleared_wf (h.memory_wf mem))

/-- An image is a byte string copied into an emptied program memory. -/
theorem State.Inv.loaded {s : State} (h : s.Inv) {image : List Byte}
    (hlen : image.length ≤ s.rom.capacity) : (s.loaded image).Inv :=
  h.setMemory .rom <| MemoryBus.writeList_wf { s.rom with cells := [] } 0 image
    (MemoryBus.cleared_wf (h.memory_wf .rom)) (by rwa [Nat.zero_add])

theorem State.Inv.hostWritten {s : State} (h : s.Inv) {mem : MemKind} {a : Nat} {bytes : List Byte}
    (hlen : a + bytes.length ≤ (s.memory mem).capacity) : (s.hostWritten mem a bytes).Inv :=
  h.setMemory mem (MemoryBus.writeList_wf _ a bytes (h.memory_wf mem) hlen)

/-- Sizing checks what the invariant needs of it: R56's range and that both contents fit. -/
theorem State.Inv.resized {s : State} (h : s.Inv) {romSize ramSize : Nat}
    (hf : s.Fits romSize ramSize) : (s.resized romSize ramSize).Inv := by
  have hrom := MemoryBus.resize_wf s.rom romSize (h.memory_wf .rom) hf.romSize_le hf.rom
  have hram := MemoryBus.resize_wf s.ram ramSize (h.memory_wf .ram) hf.ramSize_le hf.ram
  exact (h.setMemory .rom hrom).setMemory .ram hram

/-- Settles O16: each move replaces memories by well-formed ones and keeps the core, or resets the core and
keeps the memories. -/
theorem hostMovesKeepInv : Obligations.HostMovesKeepInv := by
  intro s h
  refine ⟨h.applyReset, h.clearMemory .ram, h.clearMemory, fun image t hload => ?load,
    fun romSize ramSize t hsize => ?size, fun mem a bytes t hwrite => ?write⟩
  case load =>
    obtain ⟨hlen, rfl⟩ := (s.loadProgram_eq_next_iff t image).mp hload
    exact h.loaded hlen
  case size =>
    obtain ⟨hfits, rfl⟩ := (s.sizeMemories_eq_next_iff t romSize ramSize).mp hsize
    exact h.resized hfits
  case write =>
    obtain ⟨hlen, rfl⟩ := (s.hostWrite_eq_next_iff t mem a bytes).mp hwrite
    exact h.hostWritten hlen

end Sys2Proof.Machine
end
